-- ==== Sys2Proof/Word.lean ====
section
/-! DEFINITION. The bit-vector widths of the block: every stored value is unsigned and of a stated width
(spec/00_scope.md R19); bit 0 is the least significant bit (R18). -/

namespace Sys2Proof

/-- A u32: a tick, a rotational speed, a pulse length, a millivolt sample, an opaque temperature word
(spec/00_scope.md R9, R17, R19). -/
abbrev Word := BitVec 32

/-- One 64-bit command word (spec/30_encoding.md R80). -/
abbrev CmdWord := BitVec 64

/-- The channel index field, 8 bits, zero-extended (spec/30_encoding.md R82). -/
abbrev Chan := BitVec 8

end Sys2Proof
end

