-- ==== Sys2Proof/Config.lean ====
section
/-! DEFINITION. The implementation parameters (spec/00_scope.md section 3), their defaults and the well-formedness
of a configuration (R15). A configuration never changes while the block exists (R14, R39). No parameter and no value
of this block is open in the sense of an opaque constant: what the environment is free to choose arrives as an input
(notes/assumptions/3.md). -/

namespace Sys2Proof

/-- The parameters of the whole block (spec/00_scope.md R10 to R13). -/
structure Params where
  /-- `PPR`: tachometer pulses per rotation (R10). -/
  ppr : Word
  /-- `MS_PER_MIN`: the numerator of the RPM formula (R11). -/
  msPerMin : Word
  /-- `STALL_TIMEOUT_MS`: the stall threshold (R12). -/
  stallTimeoutMs : Word
  /-- `CONTROL_PERIOD_MS`: documentation only, no rule reads it (R13). -/
  controlPeriodMs : Nat
  deriving DecidableEq, Repr

/-- The immutable fields of one channel bank (spec/00_scope.md R14, spec/10_state.md R39). -/
structure ChanConfig where
  /-- `RPM_MAX[c]`: the upper target bound. -/
  rpmMax : Word
  /-- `RPM_MIN[c]`: the lower target bound. -/
  rpmMin : Word
  /-- `PWM_PERIOD[c]`: the PWM period in native units. -/
  pwmPeriod : Word
  /-- `FULL_SCALE_MV[c]`: the full-scale voltage of the analog input. -/
  fullScaleMv : Word
  /-- `TACHO_ID[c]`: an opaque handle (R16). -/
  tachoId : Nat
  /-- `PWM_ID[c]`: an opaque handle (R16). -/
  pwmId : Nat
  /-- `ADC_ID[c]`: an opaque handle (R16). -/
  adcId : Nat
  deriving DecidableEq, Repr

/-- A whole configuration; `N_CHANNELS` is the number of its channels (spec/00_scope.md R8). -/
structure Config where
  params : Params
  chans : List ChanConfig
  deriving DecidableEq, Repr

/-- R15, the global constraints: `PPR >= 1`, `MS_PER_MIN >= 1`, `STALL_TIMEOUT_MS <= 2^31 - 1`. -/
def Params.wf (p : Params) : Bool :=
  decide (1 ≤ p.ppr.toNat) && decide (1 ≤ p.msPerMin.toNat) && decide (p.stallTimeoutMs.toNat ≤ 2 ^ 31 - 1)

/-- R15, the constraints on one channel: `RPM_MAX >= 1`, `RPM_MIN <= RPM_MAX`, `FULL_SCALE_MV >= 1`. -/
def ChanConfig.wf (c : ChanConfig) : Bool :=
  decide (1 ≤ c.rpmMax.toNat) && decide (c.rpmMin.toNat ≤ c.rpmMax.toNat) && decide (1 ≤ c.fullScaleMv.toNat)

/-- R15, the whole: also `1 <= N_CHANNELS <= 256`. That every value is below `2^32` is in the types. -/
def Config.wf (cfg : Config) : Bool :=
  cfg.params.wf && decide (1 ≤ cfg.chans.length) && decide (cfg.chans.length ≤ 256) && cfg.chans.all ChanConfig.wf

/-- The defaults of the parameter table (spec/00_scope.md section 3). -/
def Params.default : Params :=
  { ppr := 2, msPerMin := 60000, stallTimeoutMs := 1000, controlPeriodMs := 1000 }

/-- One channel with the table's example values. DESIGN CHOICE (notes/assumptions/2.md): a handle is the channel's
index; the table gives none. -/
def ChanConfig.default (c : Nat) : ChanConfig :=
  { rpmMax := 4000, rpmMin := 0, pwmPeriod := 1000, fullScaleMv := 3000, tachoId := c, pwmId := c, adcId := c }

/-- The default configuration: two channels (R8) with the table's values, the one spec/95_test_vectors.md uses. -/
def Config.default : Config :=
  { params := Params.default, chans := [ChanConfig.default 0, ChanConfig.default 1] }

end Sys2Proof
end

