-- ==== Sys2Proof/Syntax.lean ====
section
/-! DEFINITION. The commands of the FAN32-TACH command set version 1 (spec/30_encoding.md R83, R89), the registers
RDREG names (spec/20_memory.md R63, R64), the fault causes (spec/60_exceptions.md R151) and the two outcomes of
decoding (R92). -/

namespace Sys2Proof

/-- The per-channel registers, RS 0x00 to 0x07 (spec/20_memory.md R63). -/
inductive ChanReg where
  | measuredRpm | targetRpm | lastEdgeTime | cstatus | rpmMax | rpmMin | pwmPeriod | fullScaleMv
  deriving DecidableEq, Repr

/-- The global registers, RS 0x10 to 0x15 (spec/20_memory.md R64). -/
inductive GlobReg where
  | gstatus | lastTemp | nchan | cycleNow | stallTimeout | ppr
  deriving DecidableEq, Repr

/-- A legal register select (spec/20_memory.md R61). -/
inductive Reg where
  | chan (r : ChanReg)
  | glob (r : GlobReg)
  deriving DecidableEq, Repr

/-- The commands: one constructor per row of spec/opcode_table.json, with the fields its opcode uses (R83). -/
inductive Instr where
  /-- INIT_CH: `fl` is T (bit 0), A (bit 1), P (bit 2) (R86, R131). -/
  | initCh (c : Chan) (fl : BitVec 3)
  /-- INIT_DONE: `tv` says the temperature sensor initialised (R132). -/
  | initDone (tv : Bool)
  /-- EDGE: a qualifying edge of channel `c` at tick `now` (R105). -/
  | edge (c : Chan) (now : Word)
  /-- PERIOD: start one control period at tick `now` (R136). -/
  | period (now : Word)
  /-- STALL: the stall check of channel `c` at tick `now` (R112). -/
  | stall (c : Chan) (now : Word)
  /-- MAP: a control sample of channel `c`; `v` says it is valid, `mv` is in millivolts (R118). -/
  | map (c : Chan) (v : Bool) (mv : Word)
  /-- DUTY: commit channel `c`'s duty; `rdy` is the PWM output's answer (R125). -/
  | duty (c : Chan) (rdy : Bool)
  /-- TEMP: a temperature sample; `tv` says it is valid (R144). -/
  | temp (tv : Bool) (t : Word)
  /-- LOG: one log line per channel (R145). -/
  | log
  /-- RDREG: read register `r`; `c` is its bank, or 0 for a global register (R146). -/
  | rdreg (c : Chan) (r : Reg)
  deriving DecidableEq, Repr

/-- The fault causes (spec/60_exceptions.md R151). -/
inductive Cause where
  | illegalOpcode | reservedField | badChannel | badRegister | wrongState
  deriving DecidableEq, Repr

/-- What a command word decodes to: one command, or one fault cause (spec/30_encoding.md R92, R93). -/
inductive Decoded where
  | cmd (i : Instr)
  | fault (k : Cause)
  deriving DecidableEq, Repr

end Sys2Proof
end

