-- ==== Sys2Proof/WellFormed.lean ====
section
/-! DEFINITION. When a command is well formed for a block of `n` channels: the operand ranges the types do not carry
(spec/30_encoding.md R87, spec/20_memory.md R61). -/

namespace Sys2Proof

/-- A command that names a bank names one the block has (R87); a global register is read with CH = 0 (R61). -/
def Instr.wf (n : Nat) : Instr → Bool
  | .initCh c _ => decide (c.toNat < n)
  | .initDone _ => true
  | .edge c _ => decide (c.toNat < n)
  | .period _ => true
  | .stall c _ => decide (c.toNat < n)
  | .map c _ _ => decide (c.toNat < n)
  | .duty c _ => decide (c.toNat < n)
  | .temp _ _ => true
  | .log => true
  | .rdreg c (.chan _) => decide (c.toNat < n)
  | .rdreg c (.glob _) => decide (c = 0)

end Sys2Proof
end

