-- ==== Sys2Proof/Decode.lean ====
section
/-! DEFINITION. The decoder, total on any 64-bit word and rejecting by name (spec/30_encoding.md R80 to R93), the
encoder (R96), and the little-endian serialisation of words (spec/20_memory.md R74). -/

namespace Sys2Proof

/-- The opcodes of the opcode map (spec/30_encoding.md R89). -/
inductive Opcode where
  | initCh | initDone | edge | period | stall | map | duty | temp | log | rdreg
  deriving DecidableEq, Repr

/-- The fields a command word has beside OP and RSV, in the order the decoder checks them (R93). -/
inductive Field where
  | v | fl | ch | rs | opnd
  deriving DecidableEq, Repr

/-- The fields of a command word (R82). -/
structure Fields where
  op : BitVec 4
  v : BitVec 1
  fl : BitVec 3
  ch : Chan
  rs : BitVec 8
  rsv : BitVec 8
  opnd : Word
  deriving DecidableEq, Repr

/-- R82: the fields' places in the command word. -/
def Fields.ofWord (w : CmdWord) : Fields :=
  { op := w.extractLsb' 0 4
    v := w.extractLsb' 4 1
    fl := w.extractLsb' 5 3
    ch := w.extractLsb' 8 8
    rs := w.extractLsb' 16 8
    rsv := w.extractLsb' 24 8
    opnd := w.extractLsb' 32 32 }

/-- R81: the command word, from bit 63 down to bit 0. -/
def Fields.toWord (f : Fields) : CmdWord :=
  f.opnd ++ f.rsv ++ f.rs ++ f.ch ++ f.fl ++ f.v ++ f.op

/-- R89 and R90: the opcode map; 0x0 and 0xB to 0xF are reserved. -/
def Opcode.ofBits (op : BitVec 4) : Option Opcode :=
  match op.toNat with
  | 0x1 => some .initCh
  | 0x2 => some .initDone
  | 0x3 => some .edge
  | 0x4 => some .period
  | 0x5 => some .stall
  | 0x6 => some .map
  | 0x7 => some .duty
  | 0x8 => some .temp
  | 0x9 => some .log
  | 0xA => some .rdreg
  | _ => none

/-- R89: the opcode numbers. -/
def Opcode.bits : Opcode → BitVec 4
  | .initCh => 0x1
  | .initDone => 0x2
  | .edge => 0x3
  | .period => 0x4
  | .stall => 0x5
  | .map => 0x6
  | .duty => 0x7
  | .temp => 0x8
  | .log => 0x9
  | .rdreg => 0xA

/-- R83: which fields an opcode uses. -/
def Opcode.uses : Opcode → Field → Bool
  | .initCh, f => f = .fl || f = .ch
  | .initDone, f => f = .v
  | .edge, f => f = .ch || f = .opnd
  | .period, f => f = .opnd
  | .stall, f => f = .ch || f = .opnd
  | .map, f => f = .v || f = .ch || f = .opnd
  | .duty, f => f = .v || f = .ch
  | .temp, f => f = .v || f = .opnd
  | .log, _ => false
  | .rdreg, f => f = .ch || f = .rs

/-- Whether a field of a word is 0. -/
def Fields.isZero (f : Fields) : Field → Bool
  | .v => f.v = 0
  | .fl => f.fl = 0
  | .ch => f.ch = 0
  | .rs => f.rs = 0
  | .opnd => f.opnd = 0

/-- R91: RSV is nonzero, or a field the opcode leaves unused is. -/
def Opcode.reservedNonzero (o : Opcode) (f : Fields) : Bool :=
  f.rsv != 0 || [Field.v, .fl, .ch, .rs, .opnd].any fun x => !o.uses x && !f.isZero x

/-- The RS values of the per-channel registers (spec/20_memory.md R63). -/
def ChanReg.rs : ChanReg → BitVec 8
  | .measuredRpm => 0x00
  | .targetRpm => 0x01
  | .lastEdgeTime => 0x02
  | .cstatus => 0x03
  | .rpmMax => 0x04
  | .rpmMin => 0x05
  | .pwmPeriod => 0x06
  | .fullScaleMv => 0x07

/-- The RS values of the global registers (spec/20_memory.md R64). -/
def GlobReg.rs : GlobReg → BitVec 8
  | .gstatus => 0x10
  | .lastTemp => 0x11
  | .nchan => 0x12
  | .cycleNow => 0x13
  | .stallTimeout => 0x14
  | .ppr => 0x15

def Reg.rs : Reg → BitVec 8
  | .chan r => r.rs
  | .glob r => r.rs

/-- The register a select names, if it is not reserved (spec/20_memory.md R61). -/
def Reg.ofRs (rs : BitVec 8) : Option Reg :=
  match rs.toNat with
  | 0x00 => some (.chan .measuredRpm)
  | 0x01 => some (.chan .targetRpm)
  | 0x02 => some (.chan .lastEdgeTime)
  | 0x03 => some (.chan .cstatus)
  | 0x04 => some (.chan .rpmMax)
  | 0x05 => some (.chan .rpmMin)
  | 0x06 => some (.chan .pwmPeriod)
  | 0x07 => some (.chan .fullScaleMv)
  | 0x10 => some (.glob .gstatus)
  | 0x11 => some (.glob .lastTemp)
  | 0x12 => some (.glob .nchan)
  | 0x13 => some (.glob .cycleNow)
  | 0x14 => some (.glob .stallTimeout)
  | 0x15 => some (.glob .ppr)
  | _ => none

/-- The code of a fault cause (spec/60_exceptions.md R151). -/
def Cause.code : Cause → BitVec 8
  | .illegalOpcode => 0x01
  | .reservedField => 0x02
  | .badChannel => 0x03
  | .badRegister => 0x04
  | .wrongState => 0x05

/-- The operand checks of the decoder's last stage (R87, R93): the cause, if the operands are out of range for a block
of `n` channels. -/
def operandFault (n : Nat) : Instr → Option Cause
  | .initCh c _ => if c.toNat < n then none else some .badChannel
  | .initDone _ => none
  | .edge c _ => if c.toNat < n then none else some .badChannel
  | .period _ => none
  | .stall c _ => if c.toNat < n then none else some .badChannel
  | .map c _ _ => if c.toNat < n then none else some .badChannel
  | .duty c _ => if c.toNat < n then none else some .badChannel
  | .temp _ _ => none
  | .log => none
  | .rdreg c (.chan _) => if c.toNat < n then none else some .badChannel
  | .rdreg c (.glob _) => if c = 0 then none else some .badRegister

/-- The command an opcode and its fields form (R83 to R86); none for a reserved register select (R88). -/
def Opcode.command (o : Opcode) (f : Fields) : Option Instr :=
  match o with
  | .initCh => some (.initCh f.ch f.fl)
  | .initDone => some (.initDone (f.v = 1))
  | .edge => some (.edge f.ch f.opnd)
  | .period => some (.period f.opnd)
  | .stall => some (.stall f.ch f.opnd)
  | .map => some (.map f.ch (f.v = 1) f.opnd)
  | .duty => some (.duty f.ch (f.v = 1))
  | .temp => some (.temp (f.v = 1) f.opnd)
  | .log => some .log
  | .rdreg => (Reg.ofRs f.rs).map (.rdreg f.ch)

/-- R93: Decode, its checks in the rule's order, for a block of `n` channels. -/
def decode (n : Nat) (w : CmdWord) : Decoded :=
  match Opcode.ofBits (Fields.ofWord w).op with
  | none => .fault .illegalOpcode
  | some o =>
    if o.reservedNonzero (Fields.ofWord w) then .fault .reservedField
    else match o.command (Fields.ofWord w) with
      | none => .fault .badRegister
      | some i => match operandFault n i with
        | some k => .fault k
        | none => .cmd i

/-- The opcode of a command (R89). -/
def Instr.opcode : Instr → Opcode
  | .initCh _ _ => .initCh
  | .initDone _ => .initDone
  | .edge _ _ => .edge
  | .period _ => .period
  | .stall _ _ => .stall
  | .map _ _ _ => .map
  | .duty _ _ => .duty
  | .temp _ _ => .temp
  | .log => .log
  | .rdreg _ _ => .rdreg

/-- The fields of a command; those it does not use are 0 (R83, R96). -/
def Instr.fields (i : Instr) : Fields :=
  let z : Fields := { op := i.opcode.bits, v := 0, fl := 0, ch := 0, rs := 0, rsv := 0, opnd := 0 }
  match i with
  | .initCh c fl => { z with ch := c, fl := fl }
  | .initDone tv => { z with v := BitVec.ofBool tv }
  | .edge c now => { z with ch := c, opnd := now }
  | .period now => { z with opnd := now }
  | .stall c now => { z with ch := c, opnd := now }
  | .map c v mv => { z with v := BitVec.ofBool v, ch := c, opnd := mv }
  | .duty c rdy => { z with v := BitVec.ofBool rdy, ch := c }
  | .temp tv t => { z with v := BitVec.ofBool tv, opnd := t }
  | .log => z
  | .rdreg c r => { z with ch := c, rs := r.rs }

/-- R96: the command word of a command. -/
def encode (i : Instr) : CmdWord :=
  i.fields.toWord

/-- R74: the `k` bytes of a number, least significant first. -/
def leBytes : Nat → Nat → List (BitVec 8)
  | 0, _ => []
  | k + 1, v => BitVec.ofNat 8 (v % 256) :: leBytes k (v / 256)

/-- R74: the number some bytes hold, least significant first. -/
def ofLeBytes : List (BitVec 8) → Nat
  | [] => 0
  | b :: bs => b.toNat + 256 * ofLeBytes bs

/-- The serialised form of a command word: eight bytes (R74, R80). -/
def wordBytes (w : CmdWord) : List (BitVec 8) :=
  leBytes 8 w.toNat

/-- Decoding of bytes: a command is always one whole 64-bit word (R75, R80), so any other number of bytes is none. -/
def decodeBytes (n : Nat) (bs : List (BitVec 8)) : Option Decoded :=
  if bs.length = 8 then some (decode n (BitVec.ofNat 64 (ofLeBytes bs))) else none

/-- The command the decoder reads from an instruction whose bits are `w`, on a block with the default number of
channels (notes/assumptions/11.md). -/
def decodeTableWord (nbits w : Nat) : Option Instr :=
  match decodeBytes Config.default.chans.length (leBytes 8 (w % 2 ^ nbits)) with
  | some (.cmd i) => some i
  | some (.fault _) => none
  | none => none

end Sys2Proof
end

