-- ==== Sys2Proof/Machine/State.lean ====
section
/-! DEFINITION. The state of the block (spec/10_state.md): the channel banks, the global fields and the event history,
which R30 says is all its state; beside it the configuration, which never changes, and the host interface: what the
agents present and answer, and the response word (notes/assumptions/1.md, 3.md). Plain data throughout. -/

namespace Sys2Proof.Machine

/-- The Control Loop's two states (spec/10_state.md R41). -/
inductive LoopState where
  | init | running
  deriving DecidableEq, Repr

/-- The sequencer's position `G.seq` (spec/10_state.md R44). -/
inductive SeqPos where
  | idle
  | stall (c : Chan)
  | map (c : Chan)
  | duty (c : Chan)
  | temp
  | log
  deriving DecidableEq, Repr

/-- The events of the history `H` (spec/10_state.md R50). -/
inductive Event where
  /-- EV_FAULT: command `w` was rejected for `cause`. -/
  | fault (cause : BitVec 8) (w : CmdWord)
  /-- EV_STALL. -/
  | stall (c : Chan)
  /-- EV_ADC_WARN. -/
  | adcWarn (c : Chan)
  /-- EV_TEMP_WARN. -/
  | tempWarn
  /-- EV_INIT_FAIL: bit 0 tachometer, bit 1 ADC, bit 2 PWM. -/
  | initFail (c : Chan) (mask : BitVec 3)
  /-- EV_TEMP_INIT_FAIL. -/
  | tempInitFail
  /-- EV_PWM_COMMIT. -/
  | pwmCommit (c : Chan) (pulse : Word)
  /-- EV_PWM_FAIL. -/
  | pwmFail (c : Chan) (pulse : Word)
  /-- EV_LOG: one per-cycle log line. -/
  | log (c : Chan) (measured target : Word) (stall tempValid : Bool) (temp : Word)
  deriving DecidableEq, Repr

/-- The two agents that present command words (spec/10_state.md R31). -/
inductive Agent where
  | edge | main
  deriving DecidableEq, Repr

/-- The environment's responses to the sequencer's requests (spec/45_control_loop.md R140). -/
inductive Answer where
  /-- The ADC response: `v` says the sample is valid, `mv` is in millivolts. -/
  | adc (v : Bool) (mv : Word)
  /-- The PWM response: the output accepted the commit. -/
  | pwm (rdy : Bool)
  /-- The temperature response: `tv` says the sample is valid. -/
  | temp (tv : Bool) (t : Word)
  deriving DecidableEq, Repr

/-- What an agent does next (spec/20_memory.md R68; notes/assumptions/3.md). -/
inductive Input where
  /-- Agent `a` presents command word `w`. -/
  | command (a : Agent) (w : CmdWord)
  /-- The environment answers the sequencer's outstanding request. -/
  | answer (r : Answer)
  /-- The main agent's turn: a sequencer step, or the acceptance of a command on hold. -/
  | turn
  /-- The environment asserts reset (spec/70_reset_and_hazards.md R179). -/
  | reset
  deriving DecidableEq, Repr

/-- One channel bank `C[c]`: its configuration and its mutable fields (spec/10_state.md section 2). -/
structure Bank where
  /-- The immutable fields (R39). -/
  conf : ChanConfig
  /-- `C[c].measured_rpm` (R32). -/
  measuredRpm : Word
  /-- `C[c].target_rpm` (R33). -/
  targetRpm : Word
  /-- `C[c].last_edge_time` (R34). -/
  lastEdgeTime : Word
  /-- `C[c].edge_seen` (R35). -/
  edgeSeen : Bool
  /-- `C[c].stall_evt` (R36). -/
  stallEvt : Bool
  /-- `C[c].tacho_ok` (R37). -/
  tachoOk : Bool
  /-- `C[c].adc_ok` (R37). -/
  adcOk : Bool
  /-- `C[c].pwm_ok` (R37). -/
  pwmOk : Bool
  deriving DecidableEq, Repr

/-- The whole state (spec/10_state.md R30). -/
structure State where
  /-- The global parameters, which no step writes (spec/00_scope.md R10 to R13). -/
  params : Params
  /-- The banks; their number is `N_CHANNELS` (spec/00_scope.md R8, spec/10_state.md R30). -/
  banks : List Bank
  /-- `G.loop_state` (R41). -/
  loopState : LoopState
  /-- `G.temp_ok` (R42). -/
  tempOk : Bool
  /-- `G.temp_valid` (R43). -/
  tempValid : Bool
  /-- `G.last_temp` (R43). -/
  lastTemp : Word
  /-- `G.seq` (R44). -/
  seq : SeqPos
  /-- `G.cycle_now` (R45). -/
  cycleNow : Word
  /-- `G.fault_cause` (R46). -/
  faultCause : BitVec 8
  /-- `H`, oldest event first (R49). -/
  hist : List Event
  /-- What the agents and the environment will do, in order (notes/assumptions/3.md). -/
  inputs : List Input
  /-- The main agent's commands that are presented and on hold, oldest first (spec/45_control_loop.md R137, R138). -/
  held : List Instr
  /-- The environment's answer to the sequencer's outstanding request, once it has come (R139, R142). -/
  answer : Option Answer
  /-- The response word that the last step gave its issuer, if it gave one (spec/30_encoding.md R95). -/
  resp : Option Word
  deriving DecidableEq, Repr

/-- Why the machine stops. No fault of the spec stops it: those are next states (spec/60_exceptions.md R152). -/
inductive Fault where
  /-- Raised by an operation on a bank the state does not have: a sequencer position whose channel index is not below
  N_CHANNELS. No run reaches it (spec/45_control_loop.md R141). Safe (notes/assumptions/9.md). -/
  | noSuchBank (c : Chan)
  deriving DecidableEq, Repr

/-- Why the machine has no meaning for a step. -/
inductive Refusal where
  /-- Raised by exec's arm of an instruction that has no meaning yet; no arm does. Safe. -/
  | notModelled (mnemonic : String)
  /-- Raised by every step and every command of a state whose configuration is ill formed: "The model refuses an
  ill-formed configuration: no block exists for it" (spec/00_scope.md R15). Safe (notes/assumptions/8.md). -/
  | illFormedConfig
  deriving DecidableEq, Repr

/-- A bank at reset (spec/10_state.md R53). -/
def Bank.atReset (conf : ChanConfig) : Bank :=
  { conf := conf, measuredRpm := 0, targetRpm := conf.rpmMin, lastEdgeTime := 0, edgeSeen := false, stallEvt := false,
    tachoOk := false, adcOk := false, pwmOk := false }

/-- The block of configuration `cfg` right after power-on (spec/10_state.md R53), with nothing presented. -/
def State.powerOn (cfg : Config) : State :=
  { params := cfg.params, banks := cfg.chans.map Bank.atReset, loopState := .init, tempOk := false, tempValid := false,
    lastTemp := 0, seq := .idle, cycleNow := 0, faultCause := 0, hist := [], inputs := [], held := [], answer := none,
    resp := none }

/-- The machine right after reset: power-on of the default configuration (notes/assumptions/1.md). -/
def State.reset : State :=
  State.powerOn Config.default

end Sys2Proof.Machine
end

