-- ==== Sys2Proof/Machine/Ops.lean ====
section
/-! DEFINITION. The named operations every meaning is written with: reaching a bank, emitting events, answering the
issuer, raising a fault (spec/60_exceptions.md R152), holding a command (spec/45_control_loop.md R137, R138), the
checks around a command's own rule (spec/30_encoding.md R94), advancing the sequencer, and reset
(spec/70_reset_and_hazards.md R179). There is no return from a fault or an interrupt to model (R163, R164). -/

namespace Sys2Proof.Machine

/-- The outcome of a command or a step. -/
abbrev Result := Host.Outcome State Fault Refusal

/-- `N_CHANNELS` (spec/00_scope.md R8). -/
def State.nChannels (s : State) : Nat :=
  s.banks.length

/-- The configuration the block was elaborated with (spec/00_scope.md section 3). -/
def State.config (s : State) : Config :=
  { params := s.params, chans := s.banks.map (·.conf) }

/-- R15: the configuration is well formed, so the block exists. -/
def State.configOk (s : State) : Bool :=
  s.config.wf

/-- Bank `c`, if the block has it (spec/10_state.md R40). -/
def State.bank? (s : State) (c : Chan) : Option Bank :=
  s.banks[c.toNat]?

/-- Bank `c` written whole; every other bank is kept (spec/10_state.md R40). -/
def State.setBank (s : State) (c : Chan) (b : Bank) : State :=
  { s with banks := s.banks.set c.toNat b }

/-- `emit`, for some events in order: appended at the end of `H` (spec/10_state.md R49). -/
def State.emit (s : State) (es : List Event) : State :=
  { s with hist := s.hist ++ es }

/-- The response word given to the issuer (spec/30_encoding.md R95). -/
def State.respond (s : State) (v : Word) : State :=
  { s with resp := some v }

/-- R152: the bookkeeping of `raise Fault(k)` for command word `w`: the first cause is kept, the event is emitted, the
response is 0, nothing else changes. -/
def State.raise (s : State) (k : Cause) (w : CmdWord) : State :=
  { s with faultCause := if s.faultCause = 0 then k.code else s.faultCause
           hist := s.hist ++ [.fault k.code w]
           resp := some 0 }

/-- `hold`: the command is not accepted and stays presented; it has no response yet (spec/00_scope.md R23,
spec/30_encoding.md R95). Commands on hold keep their order (DESIGN CHOICE, notes/assumptions/5.md). -/
def State.hold (s : State) (i : Instr) : State :=
  { s with held := s.held ++ [i], resp := none }

/-- R152, as the outcome of a command: the block goes on. -/
def raiseFault (k : Cause) (w : CmdWord) (s : State) : Result :=
  .next (s.raise k w)

/-- A command that ends normally, with its response (spec/30_encoding.md R95). -/
def accept (v : Word) (s : State) : Result :=
  .next (s.respond v)

/-- An operation on bank `c` of the state. -/
def withBank (c : Chan) (s : State) (f : Bank → Result) : Result :=
  match s.bank? c with
  | some b => f b
  | none => .fault (.noSuchBank c)

/-- The loop states a command is legal in (spec/45_control_loop.md R133, R134). -/
def legalIn : Instr → LoopState → Bool
  | .initCh _ _, l => l = .init
  | .initDone _, l => l = .init
  | .edge _ _, _ => true
  | .period _, l => l = .running
  | .stall _ _, l => l = .running
  | .map _ _ _, l => l = .running
  | .duty _ _, l => l = .running
  | .temp _ _, l => l = .running
  | .log, l => l = .running
  | .rdreg _ _, _ => true

/-- The commands that a running cycle holds (spec/45_control_loop.md R137, R138). -/
def holdable : Instr → Bool
  | .initCh _ _ => false
  | .initDone _ => false
  | .edge _ _ => false
  | .period _ => true
  | .stall _ _ => true
  | .map _ _ _ => true
  | .duty _ _ => true
  | .temp _ _ => true
  | .log => true
  | .rdreg _ _ => false

/-- R94, after the word's fields are read: the operand checks of R93, the state check, the hold, then the command's own
rule `run`. The word of a fault is the command's own (notes/assumptions/10.md). -/
def execute (i : Instr) (run : State → Result) (s : State) : Result :=
  if s.configOk then
    match operandFault s.nChannels i with
    | some k => raiseFault k (encode i) s
    | none =>
      if legalIn i s.loopState then
        if holdable i && s.seq != .idle then .next (s.hold i) else run s
      else raiseFault .wrongState (encode i) s
  else .refused .illFormedConfig

/-- The script after the input just taken, with the response port empty until this step answers
(notes/assumptions/6.md). -/
def State.consume (s : State) (rest : List Input) : State :=
  { s with inputs := rest, resp := none }

/-- The commands still on hold once the oldest is accepted. -/
def State.keepHeld (s : State) (later : List Instr) : State :=
  { s with held := later }

/-- The sequencer moves to position `p`; the answer it used is spent (spec/45_control_loop.md R139,
spec/60_exceptions.md R172). -/
def State.advance (s : State) (p : SeqPos) : State :=
  { s with seq := p, answer := none }

/-- R179: the reset action. Every field of the banks and the globals takes its reset value; held commands and the
awaited response are discarded; the configuration and the events already emitted stay. -/
def State.resetBlock (s : State) : State :=
  { s with banks := s.banks.map (fun b => Bank.atReset b.conf)
           loopState := .init
           tempOk := false
           tempValid := false
           lastTemp := 0
           seq := .idle
           cycleNow := 0
           faultCause := 0
           held := []
           answer := none
           resp := none }

/-- The kind code of an event (spec/10_state.md R50). -/
def Event.code : Event → BitVec 8
  | .fault _ _ => 0x01
  | .stall _ => 0x10
  | .adcWarn _ => 0x11
  | .tempWarn => 0x12
  | .initFail _ _ => 0x13
  | .tempInitFail => 0x14
  | .pwmCommit _ _ => 0x20
  | .pwmFail _ _ => 0x21
  | .log _ _ _ _ _ _ => 0x30

end Sys2Proof.Machine
end

