-- ==== Sys2Proof/Machine/Flags.lean ====
section
/-! DEFINITION. The status bits as the register view shows them: CSTATUS and GSTATUS (spec/20_memory.md R63, R64;
spec/10_state.md R48). Bits that are not listed read 0. -/

namespace Sys2Proof.Machine

/-- The encoding of `G.loop_state` (spec/10_state.md R41). -/
def LoopState.code : LoopState → BitVec 1
  | .init => 0
  | .running => 1

/-- R63, CSTATUS: bit 0 EDGE_SEEN, 1 TACHO_OK, 2 ADC_OK, 3 PWM_OK, 4 STALL_EVT, the rest 0. -/
def Bank.cstatus (b : Bank) : Word :=
  0#27 ++ BitVec.ofBool b.stallEvt ++ BitVec.ofBool b.pwmOk ++ BitVec.ofBool b.adcOk ++ BitVec.ofBool b.tachoOk ++
    BitVec.ofBool b.edgeSeen

/-- R64, GSTATUS: bit 0 RUNNING, 1 TEMP_OK, 2 TEMP_VALID, 3 BUSY, 15:8 FAULT_CAUSE, the rest 0. -/
def State.gstatus (s : State) : Word :=
  0#16 ++ s.faultCause ++ 0#4 ++ BitVec.ofBool (s.seq != .idle) ++ BitVec.ofBool s.tempValid ++
    BitVec.ofBool s.tempOk ++ s.loopState.code

end Sys2Proof.Machine
end

