-- ==== Sys2Proof/Machine/Operands.lean ====
section
/-! DEFINITION. The values the operations compute from their operands: the signed tick difference
(spec/00_scope.md R21), the three quotients (spec/41_tachometer.md R108, spec/43_target.md R121, spec/44_duty.md R127),
all exact over the natural numbers (R19, R20), and the register view (spec/20_memory.md R62 to R64). -/

namespace Sys2Proof.Machine

/-- R21, the rule's `sdiff`: the difference of two ticks modulo `2^32`, read as two's complement. -/
def tickDiff (a b : Word) : Int :=
  (a - b).toInt

/-- R108: `(MS_PER_MIN / PPR) / d`, for a positive interval `d`. -/
def rpmOfInterval (p : Params) (d : Nat) : Word :=
  BitVec.ofNat 32 (p.msPerMin.toNat / p.ppr.toNat / d)

/-- R121, R122: `(RPM_MAX * mv) / FULL_SCALE_MV`, raised to `RPM_MIN`, then lowered to `RPM_MAX`. -/
def targetOfSample (k : ChanConfig) (mv : Word) : Word :=
  BitVec.ofNat 32 (min (max (k.rpmMax.toNat * mv.toNat / k.fullScaleMv.toNat) k.rpmMin.toNat) k.rpmMax.toNat)

/-- R127: `(PWM_PERIOD * target_rpm) / RPM_MAX` (notes/assumptions/12.md on its width). -/
def Bank.pulse (b : Bank) : Word :=
  BitVec.ofNat 32 (b.conf.pwmPeriod.toNat * b.targetRpm.toNat / b.conf.rpmMax.toNat)

/-- R63: a per-channel register of a bank. -/
def Bank.readReg (b : Bank) : ChanReg → Word
  | .measuredRpm => b.measuredRpm
  | .targetRpm => b.targetRpm
  | .lastEdgeTime => b.lastEdgeTime
  | .cstatus => b.cstatus
  | .rpmMax => b.conf.rpmMax
  | .rpmMin => b.conf.rpmMin
  | .pwmPeriod => b.conf.pwmPeriod
  | .fullScaleMv => b.conf.fullScaleMv

/-- R64: a global register. -/
def State.readGlob (s : State) : GlobReg → Word
  | .gstatus => s.gstatus
  | .lastTemp => s.lastTemp
  | .nchan => BitVec.ofNat 32 s.nChannels
  | .cycleNow => s.cycleNow
  | .stallTimeout => s.params.stallTimeoutMs
  | .ppr => s.params.ppr

end Sys2Proof.Machine
end

