-- ==== Sys2Proof/Machine/Control.lean ====
section
/-! DEFINITION. The orchestrator's commands: INIT_CH, INIT_DONE, PERIOD, TEMP, LOG and RDREG
(spec/45_control_loop.md R131 to R137, R144 to R146). -/

namespace Sys2Proof.Machine

/-- R131: the results of channel `c`'s initialisation; `fl` is T, A, P from bit 0. -/
def initChOp (c : Chan) (fl : BitVec 3) (b : Bank) (s : State) : State :=
  (s.setBank c { b with tachoOk := fl.getLsbD 0, adcOk := fl.getLsbD 1, pwmOk := fl.getLsbD 2 }).emit
    (if 7 - fl = 0 then [] else [.initFail c (7 - fl)])

/-- INIT_CH (R131). -/
def execInitCh (c : Chan) (fl : BitVec 3) (s : State) : Result :=
  execute (.initCh c fl) (fun s => withBank c s fun b => accept 0 (initChOp c fl b s)) s

/-- R132: the end of initialisation. -/
def initDoneOp (tv : Bool) (s : State) : State :=
  State.emit { s with tempOk := tv, loopState := .running } (if tv then [] else [.tempInitFail])

/-- INIT_DONE (R132). -/
def execInitDone (tv : Bool) (s : State) : Result :=
  execute (.initDone tv) (fun s => accept 0 (initDoneOp tv s)) s

/-- PERIOD (R136): the tick is latched and the sequencer starts. -/
def execPeriod (now : Word) (s : State) : Result :=
  execute (.period now) (fun s => accept 0 { s with cycleNow := now, seq := .stall 0 }) s

/-- R144: one temperature sample. -/
def tempOp (tv : Bool) (t : Word) (s : State) : State :=
  if s.tempOk then
    if tv then { s with tempValid := true, lastTemp := t } else s.emit [.tempWarn]
  else s

/-- TEMP (R144). -/
def execTemp (tv : Bool) (t : Word) (s : State) : Result :=
  execute (.temp tv t) (fun s => accept 0 (tempOp tv t s)) s

/-- The log line of channel `c` (R145). -/
def logLine (tempValid : Bool) (temp : Word) (c : Nat) (b : Bank) : Event :=
  .log (BitVec.ofNat 8 c) b.measuredRpm b.targetRpm b.stallEvt tempValid temp

/-- The log lines of the banks from channel `c` on, in increasing order (R145). -/
def logLines (tempValid : Bool) (temp : Word) : Nat → List Bank → List Event
  | _, [] => []
  | c, b :: bs => logLine tempValid temp c b :: logLines tempValid temp (c + 1) bs

/-- R145: one line per channel from one snapshot, then every stall bit is cleared. -/
def logOp (s : State) : State :=
  State.emit { s with banks := s.banks.map fun b => { b with stallEvt := false } }
    (logLines s.tempValid s.lastTemp 0 s.banks)

/-- LOG (R145). -/
def execLog (s : State) : Result :=
  execute .log (fun s => accept 0 (logOp s)) s

/-- RDREG (R146): the response is the register (spec/20_memory.md R62); nothing else happens. -/
def execRdreg (c : Chan) (r : Reg) (s : State) : Result :=
  execute (.rdreg c r)
    (fun s => match r with
      | .chan r => withBank c s fun b => accept (b.readReg r) s
      | .glob r => accept (s.readGlob r) s) s

end Sys2Proof.Machine
end

