-- ==== Sys2Proof/Machine/Duty.lean ====
section
/-! DEFINITION. The duty driver: DUTY (spec/44_duty.md R125 to R130). -/

namespace Sys2Proof.Machine

/-- R125 to R128: the commit of channel `c`'s pulse length, or its failure; no field changes. -/
def dutyOp (c : Chan) (rdy : Bool) (b : Bank) (s : State) : State :=
  if b.pwmOk then s.emit [if rdy then .pwmCommit c b.pulse else .pwmFail c b.pulse] else s

/-- The response of DUTY: the pulse length, or 0 when it is skipped (spec/30_encoding.md R95, R126). -/
def Bank.dutyResponse (b : Bank) : Word :=
  if b.pwmOk then b.pulse else 0

/-- DUTY (R125). -/
def execDuty (c : Chan) (rdy : Bool) (s : State) : Result :=
  execute (.duty c rdy) (fun s => withBank c s fun b => accept b.dutyResponse (dutyOp c rdy b s)) s

end Sys2Proof.Machine
end

