-- ==== Sys2Proof/Machine/Stall.lean ====
section
/-! DEFINITION. The stall-detection threshold comparator: STALL (spec/42_stall.md R112 to R117). -/

namespace Sys2Proof.Machine

/-- R113: a stall is detected, by a strict comparison. -/
def Bank.stalled (p : Params) (now : Word) (b : Bank) : Bool :=
  decide (b.measuredRpm ≠ 0) && decide ((p.stallTimeoutMs.toNat : Int) < tickDiff now b.lastEdgeTime)

/-- R112, R113: the stall check of channel `c` at tick `now`, one test and zero. -/
def stallOp (c : Chan) (now : Word) (b : Bank) (s : State) : State :=
  if b.stalled s.params now then
    (s.setBank c { b with measuredRpm := 0, stallEvt := true }).emit [.stall c]
  else s

/-- STALL (R112). -/
def execStall (c : Chan) (now : Word) (s : State) : Result :=
  execute (.stall c now) (fun s => withBank c s fun b => accept 0 (stallOp c now b s)) s

end Sys2Proof.Machine
end

