-- ==== Sys2Proof/Machine/Tacho.lean ====
section
/-! DEFINITION. The tachometer edge-to-RPM estimator: EDGE (spec/41_tachometer.md R105 to R111). -/

namespace Sys2Proof.Machine

/-- R107 to R110: what one delivered edge at tick `now` writes in the bank. -/
def Bank.recordEdge (p : Params) (now : Word) (b : Bank) : Bank :=
  { b with measuredRpm :=
             if b.edgeSeen ∧ 0 < tickDiff now b.lastEdgeTime then rpmOfInterval p (tickDiff now b.lastEdgeTime).toNat
             else b.measuredRpm
           lastEdgeTime := now
           edgeSeen := true }

/-- R105, R106: the edge of channel `c`; without an initialised tachometer it has no effect. -/
def edgeOp (c : Chan) (now : Word) (b : Bank) (s : State) : State :=
  if b.tachoOk then s.setBank c (b.recordEdge s.params now) else s

/-- EDGE (R105). -/
def execEdge (c : Chan) (now : Word) (s : State) : Result :=
  execute (.edge c now) (fun s => withBank c s fun b => accept 0 (edgeOp c now b s)) s

end Sys2Proof.Machine
end

