-- ==== Sys2Proof/Machine/Target.lean ====
section
/-! DEFINITION. The target mapper: MAP (spec/43_target.md R118 to R124). -/

namespace Sys2Proof.Machine

/-- R118 to R122: one control sample of channel `c`. A skipped subsystem does nothing, a failed sample keeps the target
with a warning, a valid one writes the clamped target. -/
def mapOp (c : Chan) (v : Bool) (mv : Word) (b : Bank) (s : State) : State :=
  if b.adcOk then
    if v then s.setBank c { b with targetRpm := targetOfSample b.conf mv } else s.emit [.adcWarn c]
  else s

/-- MAP (R118). -/
def execMap (c : Chan) (v : Bool) (mv : Word) (s : State) : Result :=
  execute (.map c v mv) (fun s => withBank c s fun b => accept 0 (mapOp c v mv b s)) s

end Sys2Proof.Machine
end

