-- ==== Sys2Proof/Machine/Sequencer.lean ====
section
/-! DEFINITION. The orchestrator's sequencer and its requests to the environment (spec/45_control_loop.md R139 to
R143, R149). A sequencer step runs the same operation as the direct command (R141). -/

namespace Sys2Proof.Machine

/-- Whether `r` answers the request the sequencer makes at its position: a position requests a response only if its
subsystem's ok bit is 1 (R139, R140). -/
def State.requests (s : State) : Answer → Bool
  | .adc _ _ => match s.seq with
    | .map c => (s.bank? c).any (·.adcOk)
    | _ => false
  | .pwm _ => match s.seq with
    | .duty c => (s.bank? c).any (·.pwmOk)
    | _ => false
  | .temp _ _ => match s.seq with
    | .temp => s.tempOk
    | _ => false

/-- The environment answers. What answers no outstanding request has no effect (DESIGN CHOICE,
notes/assumptions/7.md). -/
def State.deliver (s : State) (r : Answer) : State :=
  if s.requests r && s.answer.isNone then { s with answer := some r } else s

/-- R139: the position after `S_DUTY(c)`. -/
def State.afterDuty (s : State) (c : Chan) : SeqPos :=
  if c.toNat + 1 < s.nChannels then .stall (c + 1) else .temp

/-- R139: one sequencer step. At IDLE, and while a request is unanswered, there is none (R142;
notes/assumptions/20.md). -/
def sequencerStep (s : State) : Result :=
  match s.seq with
  | .idle => .next s
  | .stall c => withBank c s fun b => .next ((stallOp c s.cycleNow b s).advance (.map c))
  | .map c => withBank c s fun b =>
    if b.adcOk then
      match s.answer with
      | some (.adc v mv) => .next ((mapOp c v mv b s).advance (.duty c))
      | _ => .next s
    else .next (s.advance (.duty c))
  | .duty c => withBank c s fun b =>
    if b.pwmOk then
      match s.answer with
      | some (.pwm rdy) => .next ((dutyOp c rdy b s).advance (s.afterDuty c))
      | _ => .next s
    else .next (s.advance (s.afterDuty c))
  | .temp =>
    if s.tempOk then
      match s.answer with
      | some (.temp tv t) => .next ((tempOp tv t s).advance .log)
      | _ => .next s
    else .next (s.advance .log)
  | .log => .next ((logOp s).advance .idle)

end Sys2Proof.Machine
end

