-- ==== Sys2Proof/Machine/Dispatch.lean ====
section
/-! DEFINITION. The dispatch of a command to its meaning, one arm per constructor of Instr. -/

namespace Sys2Proof.Machine

def exec (i : Instr) (s : State) : Host.Outcome State Fault Refusal :=
  match i with
  | .initCh c fl => Sys2Proof.Machine.execInitCh c fl s
  | .initDone tv => Sys2Proof.Machine.execInitDone tv s
  | .edge c now => Sys2Proof.Machine.execEdge c now s
  | .period now => Sys2Proof.Machine.execPeriod now s
  | .stall c now => Sys2Proof.Machine.execStall c now s
  | .map c v mv => Sys2Proof.Machine.execMap c v mv s
  | .duty c rdy => Sys2Proof.Machine.execDuty c rdy s
  | .temp tv t => Sys2Proof.Machine.execTemp tv t s
  | .log => Sys2Proof.Machine.execLog s
  | .rdreg c r => Sys2Proof.Machine.execRdreg c r s

end Sys2Proof.Machine
end

