-- ==== Sys2Proof/Machine/Agents.lean ====
section
/-! DEFINITION. The agents' steps (spec/10_state.md R31, spec/20_memory.md R66 to R69): presenting a command word, the
main agent's own turn, the environment's answer and reset, each one atomic step; and the choice of the next one from
the script of inputs (notes/assumptions/3.md, 4.md, 5.md). -/

namespace Sys2Proof.Machine

/-- R94: Execute, a command word `w`. -/
def executeWord (w : CmdWord) (s : State) : Result :=
  match decode s.nChannels w with
  | .cmd i => exec i s
  | .fault k => raiseFault k w s

/-- The main agent's own turn: a step of the running cycle (R139), or, at IDLE, the acceptance of the oldest command
on hold (R137, R138), or nothing: "Between two cycles the block is at G.seq = IDLE and does nothing" (R147). -/
def mainTurn (s : State) : Result :=
  match s.seq, s.held with
  | .idle, [] => .next s
  | .idle, i :: rest => exec i (s.keepHeld rest)
  | _, _ => sequencerStep s

/-- A command on hold is accepted in the first step at which `G.seq = IDLE`, so before another command of the main
agent; an EDGE of the edge agent may still go first (R137, R160; notes/assumptions/5.md). -/
def State.heldFirst (s : State) (a : Agent) : Bool :=
  a = .main && s.seq = .idle && !s.held.isEmpty

/-- One atomic step: what the script says next. The response port shows this step's response only
(notes/assumptions/6.md). -/
def nextStep (s : State) : Result :=
  if s.configOk then
    match s.inputs with
    | [] => mainTurn (s.consume [])
    | .turn :: rest => mainTurn (s.consume rest)
    | .answer r :: rest => .next ((s.consume rest).deliver r)
    | .reset :: rest => .next (s.consume rest).resetBlock
    | .command a w :: rest =>
      if s.heldFirst a then mainTurn (s.consume s.inputs)
      else executeWord w (s.consume rest)
  else .refused .illFormedConfig

/-- The agent that issues an opcode (spec/30_encoding.md R89): the edge agent issues EDGE and nothing else. -/
def issuer : Opcode → Agent
  | .edge => .edge
  | .initCh => .main
  | .initDone => .main
  | .period => .main
  | .stall => .main
  | .map => .main
  | .duty => .main
  | .temp => .main
  | .log => .main
  | .rdreg => .main

/-- The agent that would present word `w`; a reserved opcode is the main agent's. -/
def issuerOfWord (w : CmdWord) : Agent :=
  match Opcode.ofBits (Fields.ofWord w).op with
  | some o => issuer o
  | none => .main

/-- The state in which its issuer presents `w` in the next step: `w` leads the script, and if a command on hold would
go first, nothing is on hold (notes/assumptions/11.md). -/
def State.present (s : State) (w : CmdWord) : State :=
  { s with inputs := .command (issuerOfWord w) w :: s.inputs
           held := if s.heldFirst (issuerOfWord w) then [] else s.held }

end Sys2Proof.Machine
end

