-- ==== Sys2Proof/Machine/Step.lean ====
section
/-! DEFINITION. One step of the machine, and how a command is placed so that the next step runs it. -/

namespace Sys2Proof.Machine

/-- One atomic step of the block (spec/20_memory.md R66, R68). -/
def step (s : State) : Host.Outcome State Fault Refusal :=
  nextStep s

/-- `s` with the command word of bits `w` presented next (notes/assumptions/11.md). -/
def State.withFetchWord (s : State) (nbits w : Nat) : State :=
  s.present (BitVec.ofNat 64 (w % 2 ^ nbits))

end Sys2Proof.Machine
end

