-- ==== Sys2Proof/Machine/Assembler.lean ====
section
/-! DEFINITION. The assembly syntax and the pseudo-commands (spec/30_encoding.md R98 to R101): one line of text to the
command words it stands for. An operand outside its field's range is an error, never truncated (R98). What the rules leave
open of the text form is in notes/assumptions/16.md. -/

namespace Sys2Proof.Machine

/-! The pseudo-commands' expansions. -/

/-- R99: `INIT_ALL t, a, p, tv` on a block of `n` channels. -/
def initAll (n : Nat) (fl : BitVec 3) (tv : Bool) : List Instr :=
  (List.range n).map (fun c => .initCh (BitVec.ofNat 8 c) fl) ++ [.initDone tv]

/-- The responses one channel meets in a cycle: the sample's validity and value, and the PWM output's answer. -/
structure Draw where
  v : Bool
  mv : Word
  rdy : Bool
  deriving DecidableEq, Repr

/-- R100: the part of `CYCLE` for the channels from `c` on. -/
def cycleChannels (now : Word) : Nat → List Draw → List Instr
  | _, [] => []
  | c, d :: ds =>
    .stall (BitVec.ofNat 8 c) now :: .map (BitVec.ofNat 8 c) d.v d.mv :: .duty (BitVec.ofNat 8 c) d.rdy ::
      cycleChannels now (c + 1) ds

/-- R100: `CYCLE now, (v, mv, r), …, (tv, t)`. -/
def cycle (now : Word) (ds : List Draw) (tv : Bool) (t : Word) : List Instr :=
  cycleChannels now 0 ds ++ [.temp tv t, .log]

/-! Reading a line. -/

/-- A token of an assembly line. -/
inductive Token where
  | word (cs : List Char)
  | comma | lpar | rpar
  deriving DecidableEq, Repr

/-- The word read so far, as a token. -/
def flushWord (acc : List Char) (ts : List Token) : List Token :=
  if acc.isEmpty then ts else .word acc :: ts

/-- The tokens of a line; `acc` is the word read so far. -/
def tokens (acc : List Char) : List Char → List Token
  | [] => flushWord acc []
  | c :: cs =>
    if c = ' ' ∨ c = '\t' then flushWord acc (tokens [] cs)
    else if c = ',' then flushWord acc (.comma :: tokens [] cs)
    else if c = '(' then flushWord acc (.lpar :: tokens [] cs)
    else if c = ')' then flushWord acc (.rpar :: tokens [] cs)
    else tokens (acc ++ [c]) cs

/-- An operand: one word, or a parenthesised group of words (R100). -/
inductive Operand where
  | one (cs : List Char)
  | group (ws : List (List Char))
  deriving DecidableEq, Repr

/-- How far the operand list has been read: the operands done, the group that is open, and whether an item must come
next. -/
structure OperandState where
  done : List Operand
  open? : Option (List (List Char))
  needItem : Bool
  deriving DecidableEq, Repr

/-- One token of an operand list: items are separated by commas (R98). -/
def operandStep (st : Option OperandState) (t : Token) : Option OperandState :=
  match st with
  | none => none
  | some st =>
    match t, st.open?, st.needItem with
    | .word w, none, true => some { st with done := st.done ++ [.one w], needItem := false }
    | .word w, some g, true => some { st with open? := some (g ++ [w]), needItem := false }
    | .comma, _, false => some { st with needItem := true }
    | .lpar, none, true => some { st with open? := some [] }
    | .rpar, some g, false => some { st with done := st.done ++ [.group g], open? := none }
    | _, _, _ => none

/-- The operands of a line, if they are separated and grouped properly. -/
def operands (ts : List Token) : Option (List Operand) :=
  if ts.isEmpty then some []
  else match ts.foldl operandStep (some { done := [], open? := none, needItem := true }) with
    | some ⟨done, none, false⟩ => some done
    | _ => none

/-- The value of a digit in base 16. -/
def digit (c : Char) : Option Nat :=
  if '0' ≤ c ∧ c ≤ '9' then some (c.toNat - '0'.toNat)
  else if 'a' ≤ c ∧ c ≤ 'f' then some (c.toNat - 'a'.toNat + 10)
  else if 'A' ≤ c ∧ c ≤ 'F' then some (c.toNat - 'A'.toNat + 10)
  else none

/-- The number some digits write in base `b`, after the value `acc`. -/
def digits (b acc : Nat) : List Char → Option Nat
  | [] => some acc
  | c :: cs =>
    match digit c with
    | some d => if d < b then digits b (acc * b + d) cs else none
    | none => none

/-- R98: a number is decimal, or hexadecimal with a `0x` prefix. -/
def number : List Char → Option Nat
  | [] => none
  | ['0', 'x'] => none
  | '0' :: 'x' :: cs => digits 16 0 cs
  | cs => digits 10 0 cs

/-- R98: a number that fits a field of `k` bits. -/
def unsignedOperand (k : Nat) (cs : List Char) : Option (BitVec k) :=
  match number cs with
  | some v => if v < 2 ^ k then some (BitVec.ofNat k v) else none
  | none => none

/-- R98: a single bit. -/
def bitOperand (cs : List Char) : Option Bool :=
  (unsignedOperand 1 cs).map (· = 1)

/-- The register names of spec/20_memory.md R63 and R64. -/
def regNamed (cs : List Char) : Option Reg :=
  if cs = "MEASURED_RPM".toList then some (.chan .measuredRpm)
  else if cs = "TARGET_RPM".toList then some (.chan .targetRpm)
  else if cs = "LAST_EDGE_TIME".toList then some (.chan .lastEdgeTime)
  else if cs = "CSTATUS".toList then some (.chan .cstatus)
  else if cs = "RPM_MAX".toList then some (.chan .rpmMax)
  else if cs = "RPM_MIN".toList then some (.chan .rpmMin)
  else if cs = "PWM_PERIOD".toList then some (.chan .pwmPeriod)
  else if cs = "FULL_SCALE_MV".toList then some (.chan .fullScaleMv)
  else if cs = "GSTATUS".toList then some (.glob .gstatus)
  else if cs = "LAST_TEMP".toList then some (.glob .lastTemp)
  else if cs = "NCHAN".toList then some (.glob .nchan)
  else if cs = "CYCLE_NOW".toList then some (.glob .cycleNow)
  else if cs = "STALL_TIMEOUT".toList then some (.glob .stallTimeout)
  else if cs = "PPR".toList then some (.glob .ppr)
  else none

/-- R98: RDREG's second operand, a register's name or any register select in its field's range: a reserved one gives a
word that faults (spec/95_test_vectors.md T-R8). -/
def regOperand (cs : List Char) : Option (BitVec 8) :=
  match regNamed cs with
  | some r => some r.rs
  | none => unsignedOperand 8 cs

/-- The word of RDREG with a register select as it is written (R96). -/
def rdregWord (c : Chan) (rs : BitVec 8) : CmdWord :=
  Fields.toWord { op := Opcode.rdreg.bits, v := 0, fl := 0, ch := c, rs := rs, rsv := 0, opnd := 0 }

/-- The flag field of three bits T, A, P (R86). -/
def initFlags (t a p : Bool) : BitVec 3 :=
  BitVec.ofBool p ++ BitVec.ofBool a ++ BitVec.ofBool t

/-- The channels' groups of a `CYCLE`, and its last group (R100). -/
def cycleOperands : List Operand → Option (List Draw × Bool × Word)
  | [.group [tv, t]] => do
    let tv ← bitOperand tv
    let t ← unsignedOperand 32 t
    return ([], tv, t)
  | .group [v, mv, r] :: rest => do
    let v ← bitOperand v
    let mv ← unsignedOperand 32 mv
    let r ← bitOperand r
    let (ds, tv, t) ← cycleOperands rest
    return (⟨v, mv, r⟩ :: ds, tv, t)
  | _ => none

/-- R98: the command words, by mnemonic and operands. RDREG of a global register's name with a channel other than 0
assembles, to a word that faults when it is executed: DESIGN CHOICE (notes/assumptions/16.md). -/
def assembleCommand (m : List Char) (ops : List Operand) : Option CmdWord :=
  match ops with
  | [] => if m = "LOG".toList then some (encode .log) else none
  | [.one a] =>
    if m = "INIT_DONE".toList then do return encode (.initDone (← bitOperand a))
    else if m = "PERIOD".toList then do return encode (.period (← unsignedOperand 32 a))
    else none
  | [.one a, .one b] =>
    if m = "EDGE".toList then do return encode (.edge (← unsignedOperand 8 a) (← unsignedOperand 32 b))
    else if m = "STALL".toList then do return encode (.stall (← unsignedOperand 8 a) (← unsignedOperand 32 b))
    else if m = "DUTY".toList then do return encode (.duty (← unsignedOperand 8 a) (← bitOperand b))
    else if m = "TEMP".toList then do return encode (.temp (← bitOperand a) (← unsignedOperand 32 b))
    else if m = "RDREG".toList then do return rdregWord (← unsignedOperand 8 a) (← regOperand b)
    else none
  | [.one a, .one b, .one c] =>
    if m = "MAP".toList then do
      return encode (.map (← unsignedOperand 8 a) (← bitOperand b) (← unsignedOperand 32 c))
    else none
  | [.one a, .one b, .one c, .one d] =>
    if m = "INIT_CH".toList then do
      return encode (.initCh (← unsignedOperand 8 a) (initFlags (← bitOperand b) (← bitOperand c) (← bitOperand d)))
    else none
  | _ => none

/-- R99 to R101: the pseudo-commands, on a block of `n` channels. `RD c, NAME` takes any register's name, as RDREG does;
`RD NAME` takes a global register's (notes/assumptions/16.md). -/
def assemblePseudo (n : Nat) (m : List Char) (ops : List Operand) : Option (List Instr) :=
  match ops with
  | [.one a, .one b, .one c, .one d] =>
    if m = "INIT_ALL".toList then do
      return initAll n (initFlags (← bitOperand a) (← bitOperand b) (← bitOperand c)) (← bitOperand d)
    else none
  | [.one a, .one b] =>
    if m = "RD".toList then do
      return [.rdreg (← unsignedOperand 8 a) (← regNamed b)]
    else none
  | [.one a] =>
    if m = "RD".toList then do
      match ← regNamed a with
      | .glob r => return [.rdreg 0 (.glob r)]
      | .chan _ => none
    else none
  | .one a :: rest =>
    if m = "CYCLE".toList then do
      let now ← unsignedOperand 32 a
      let (ds, tv, t) ← cycleOperands rest
      if ds.length = n then return cycle now ds tv t else none
    else none
  | _ => none

/-- One line of assembly to its command words, on a block of `n` channels; none is an assembly error (R98). -/
def assembleChars (n : Nat) (line : List Char) : Option (List CmdWord) :=
  match tokens [] line with
  | .word m :: ts =>
    match operands ts with
    | some ops =>
      match assembleCommand m ops with
      | some w => some [w]
      | none => (assemblePseudo n m ops).map (·.map encode)
    | none => none
  | _ => none

/-- One line of assembly text, on a block of `n` channels. -/
def assemble (n : Nat) (line : String) : Option (List CmdWord) :=
  assembleChars n line.toList

end Sys2Proof.Machine
end

