-- ==== Sys2Proof/Safety.lean ====
section
/-! DEFINITION. The terms the claims are stated in: the invariants of the block (spec/10_state.md R38,
spec/45_control_loop.md R141), a failed run (spec/60_exceptions.md R153), a sequencer that waits (R142), the order of a
cycle (R139), and the scripts that drive a whole cycle (R100, R150). -/

namespace Sys2Proof.Machine

/-- R38: (i) a nonzero reading has an edge behind it, (ii) the target is within its bounds, (iii) the reading is at most
`MS_PER_MIN / PPR`. -/
abbrev Bank.Ok (p : Params) (b : Bank) : Prop :=
  (b.measuredRpm ≠ 0 → b.edgeSeen = true) ∧
  b.conf.rpmMin.toNat ≤ b.targetRpm.toNat ∧ b.targetRpm.toNat ≤ b.conf.rpmMax.toNat ∧
  b.measuredRpm.toNat ≤ p.msPerMin.toNat / p.ppr.toNat

/-- The sequencer's position names a bank the block has (R44, R141). -/
def State.seqInRange (s : State) : Bool :=
  match s.seq with
  | .idle => true
  | .stall c => decide (c.toNat < s.nChannels)
  | .map c => decide (c.toNat < s.nChannels)
  | .duty c => decide (c.toNat < s.nChannels)
  | .temp => true
  | .log => true

/-- The invariant of the block: the configuration is well formed (R15), every bank is as R38 says, the sequencer's
position is in range and it runs only in RUNNING (R141), the fault cause is 0 or a code of R151, the commands on hold
have passed every check (R154), and an answer is there only for an outstanding request (R140). -/
abbrev State.Inv (s : State) : Prop :=
  s.configOk = true ∧
  (∀ b ∈ s.banks, b.Ok s.params) ∧
  s.seqInRange = true ∧
  (s.seq ≠ .idle → s.loopState = .running) ∧
  s.faultCause.toNat ≤ 5 ∧
  (∀ i ∈ s.held, i.wf s.nChannels = true ∧ holdable i = true) ∧
  (s.held ≠ [] → s.loopState = .running) ∧
  s.answer.all s.requests = true

/-- R153: a run that records a fault is a failed run of the command issuer. -/
def State.failed (s : State) : Bool :=
  s.faultCause != 0 || s.hist.any fun e => e.code = 0x01

/-- R142: the sequencer has made a request that the environment has not answered. -/
def State.waiting (s : State) : Bool :=
  s.answer.isNone &&
    match s.seq with
    | .idle => false
    | .stall _ => false
    | .map c => (s.bank? c).any (·.adcOk)
    | .duty c => (s.bank? c).any (·.pwmOk)
    | .temp => s.tempOk
    | .log => false

/-- R139: the position after each position, for `n` channels. -/
def SeqPos.next (n : Nat) : SeqPos → SeqPos
  | .idle => .idle
  | .stall c => .map c
  | .map c => .duty c
  | .duty c => if c.toNat + 1 < n then .stall (c + 1) else .temp
  | .temp => .log
  | .log => .idle

/-- Direct commands executed one after another, with nothing between them (R99, R100). -/
def runCommands : List Instr → State → Result
  | [], s => .next s
  | i :: is, s =>
    match exec i s with
    | .next t => runCommands is t
    | .fault r => .fault r
    | .refused r => .refused r

/-- `k` steps of the machine, stopping at the first that answers no next state. -/
def runSteps : Nat → State → Result
  | 0, s => .next s
  | k + 1, s =>
    match step s with
    | .next t => runSteps k t
    | .fault r => .fault r
    | .refused r => .refused r

/-- The main agent's turns over some channels, every request answered from a draw (R139, R140). -/
def channelScript : List Draw → List Input
  | [] => []
  | d :: ds =>
    .turn :: .answer (.adc d.v d.mv) :: .turn :: .answer (.pwm d.rdy) :: .turn :: channelScript ds

/-- A whole cycle after PERIOD, every request answered (R143, R150). -/
def cycleScript (ds : List Draw) (tv : Bool) (t : Word) : List Input :=
  channelScript ds ++ [.answer (.temp tv t), .turn, .turn]

/-- The state with another `CONTROL_PERIOD_MS`, which is documentation only (spec/00_scope.md R13). -/
def State.withControlPeriod (s : State) (p : Nat) : State :=
  { s with params := { s.params with controlPeriodMs := p } }

end Sys2Proof.Machine
end

