-- ==== Sys2Proof/Certificates/Slice0/Obligations.lean ====
section
/-! DEFINITION. What is claimed of the model, from the numbered rules of spec/. Nothing is proved here. A next state is
written out whole where it can be, so the statement is also the command's frame: what the record does not name is
unchanged. `resp := some v` is the response word of spec/30_encoding.md R95; the field that holds it is the model's own
(notes/assumptions/6.md), and so is the script `inputs` that says what comes next (notes/assumptions/3.md, 13.md). -/

open Sys2Proof Sys2Proof.Machine

/-! Encoding and decoding. -/

/-- spec/30_encoding.md R96 (derived there): the encoding of every well-formed command decodes to it, with every
operand at every value. -/
def Obligations.DecodeOfEncode : Prop :=
  ∀ (n : Nat) (i : Instr), i.wf n = true → decode n (encode i) = .cmd i

/-- No bit of a command word is ignored: a word that decodes to a command is that command's encoding, and the command
is well formed (spec/30_encoding.md R91, R92 as derived, R96 as derived). -/
def Obligations.EncodeOfDecode : Prop :=
  ∀ (n : Nat) (w : CmdWord) (i : Instr), decode n w = .cmd i → encode i = w ∧ i.wf n = true

/-- Worked encodings of spec/30_encoding.md R97, one per opcode and two more, decode to what they stand for. -/
def Obligations.WorkedEncodingsDecode : Prop :=
  decode 2 0x00000000000000E1 = .cmd (.initCh 0 0b111) ∧ decode 2 0x00000000000001A1 = .cmd (.initCh 1 0b101) ∧
  decode 2 0x0000000000000012 = .cmd (.initDone true) ∧ decode 2 0x0000001000000103 = .cmd (.edge 1 0x10) ∧
  decode 2 0x000007D000000004 = .cmd (.period 2000) ∧ decode 2 0x0000177100000005 = .cmd (.stall 0 6001) ∧
  decode 2 0x000005DC00000016 = .cmd (.map 0 true 1500) ∧ decode 2 0x0000000000000106 = .cmd (.map 1 false 0) ∧
  decode 2 0x0000000000000017 = .cmd (.duty 0 true) ∧ decode 2 0x0000001900000018 = .cmd (.temp true 25) ∧
  decode 2 0x0000000000000009 = .cmd .log ∧ decode 2 0x000000000010000A = .cmd (.rdreg 0 (.glob .gstatus))

/-- spec/30_encoding.md R90 with R152: Execute (R94) of a word with a reserved opcode faults ILLEGAL_OPCODE (code 1)
and has no other effect, in every state. -/
def Obligations.ReservedOpcodeFaults : Prop :=
  ∀ (s : State) (w : CmdWord), (w.toNat % 16 = 0 ∨ 0xB ≤ w.toNat % 16) →
    executeWord w s = .next { s with faultCause := if s.faultCause = 0 then 1 else s.faultCause
                                     hist := s.hist ++ [.fault 1 w]
                                     resp := some 0 }

/-- spec/30_encoding.md R91 by the table of R83: for each opcode, the mask of RSV and of the fields it does not use;
Execute (R94) of a word with a bit set there faults RESERVED_FIELD (code 2) and has no other effect, in every state. -/
def Obligations.ReservedFieldFaults : Prop :=
  ∀ (s : State) (w : CmdWord) (op mask : Nat),
    (op, mask) ∈ [(0x1, 0xFFFFFFFFFFFF0010), (0x2, 0xFFFFFFFFFFFFFFE0), (0x3, 0x00000000FFFF00F0),
      (0x4, 0x00000000FFFFFFF0), (0x5, 0x00000000FFFF00F0), (0x6, 0x00000000FFFF00E0), (0x7, 0xFFFFFFFFFFFF00E0),
      (0x8, 0x00000000FFFFFFE0), (0x9, 0xFFFFFFFFFFFFFFF0), (0xA, 0xFFFFFFFFFF0000F0)] →
    w.toNat % 16 = op → w &&& BitVec.ofNat 64 mask ≠ 0 →
    executeWord w s = .next { s with faultCause := if s.faultCause = 0 then 2 else s.faultCause
                                     hist := s.hist ++ [.fault 2 w]
                                     resp := some 0 }

/-- spec/30_encoding.md R93 and spec/20_memory.md R61: an RDREG word with its unused fields 0 and a reserved register
select is BAD_REGISTER, whatever its channel. -/
def Obligations.ReservedRegisterIsBadRegister : Prop :=
  ∀ (n : Nat) (c rs : BitVec 8), (0x08 ≤ rs.toNat ∧ rs.toNat ≤ 0x0F ∨ 0x16 ≤ rs.toNat) →
    decode n (BitVec.ofNat 64 (rs.toNat * 2 ^ 16 + c.toNat * 2 ^ 8 + 0xA)) = .fault .badRegister

/-- spec/30_encoding.md R87 with spec/20_memory.md R61: a command that names a bank the block does not have faults
BAD_CHANNEL (code 3), and a global register named with a nonzero channel BAD_REGISTER (code 4), in every state and
whatever its other operands; the check comes before the state check and the hold (R94). The event's word is the
presented one, `encode i` (notes/assumptions/10.md). -/
def Obligations.OperandOutOfRangeFaults : Prop :=
  ∀ (s : State) (i : Instr), s.configOk = true → i.wf s.nChannels = false →
    ∃ k : BitVec 8, ((∃ c r, i = .rdreg c (.glob r)) → k = 4) ∧ ((∀ c r, i ≠ .rdreg c (.glob r)) → k = 3) ∧
      exec i s = .next { s with faultCause := if s.faultCause = 0 then k else s.faultCause
                                hist := s.hist ++ [.fault k (encode i)]
                                resp := some 0 }

/-- spec/60_exceptions.md R152, at the machine's step: a presented word that does not decode is recorded with its
cause's code (R151), responds 0, and nothing else changes; the block goes on. The premise that no command on hold goes
first is the model's choice (notes/assumptions/5.md), as is the script that presents the word (notes/assumptions/3.md). -/
def Obligations.UndecodableWordIsRecorded : Prop :=
  ∀ (s : State) (a : Agent) (w : CmdWord) (rest : List Input) (k : Cause),
    s.configOk = true → s.inputs = .command a w :: rest → s.heldFirst a = false → decode s.nChannels w = .fault k →
    step s = .next { s with inputs := rest
                            faultCause := if s.faultCause = 0 then k.code else s.faultCause
                            hist := s.hist ++ [.fault k.code w]
                            resp := some 0 }

/-! One step. -/

/-- A presented word that decodes to a command is executed by exec (spec/30_encoding.md R94), on the state with the
input consumed and the response port empty, unless the word is the main agent's and a command on hold goes first. The
script, that order and the port are the model's choices (notes/assumptions/3.md, 5.md, 6.md). -/
def Obligations.StepRunsDecodedCommand : Prop :=
  ∀ (s : State) (a : Agent) (w : CmdWord) (rest : List Input) (i : Instr),
    s.configOk = true → s.inputs = .command a w :: rest → s.heldFirst a = false → decode s.nChannels w = .cmd i →
    step s = exec i { s with inputs := rest, resp := none }

/-- spec/00_scope.md R15: on a configuration that fails any of its constraints no step and no command has a meaning.
That every value is below `2^32` is in the types. R15 says that the model refuses the configuration; that every step and
every command answers the refusal is the model's reading of it (notes/assumptions/8.md). -/
def Obligations.IllFormedConfigurationRefused : Prop :=
  ∀ (s : State) (i : Instr),
    ¬ (1 ≤ s.banks.length ∧ s.banks.length ≤ 256 ∧ 1 ≤ s.params.ppr.toNat ∧ 1 ≤ s.params.msPerMin.toNat ∧
       s.params.stallTimeoutMs.toNat ≤ 2 ^ 31 - 1 ∧
       ∀ b ∈ s.banks, 1 ≤ b.conf.rpmMax.toNat ∧ b.conf.rpmMin.toNat ≤ b.conf.rpmMax.toNat ∧
         1 ≤ b.conf.fullScaleMv.toNat) →
    step s = .refused .illFormedConfig ∧ exec i s = .refused .illFormedConfig

/-- spec/70_reset_and_hazards.md R179 with the values of spec/10_state.md R53: reset, at any step. The configuration
and the events already emitted stay; held commands and the awaited response are discarded. At power-on the history is
empty. What the response port shows after a reset is not stated. That reset is an item of the script, and that what follows it
stays there, is the model's reading (notes/assumptions/3.md, 13.md). -/
def Obligations.ResetAction : Prop :=
  (∀ cfg : Config, (State.powerOn cfg).hist = []) ∧
  ∀ (s : State) (rest : List Input), s.configOk = true → s.inputs = .reset :: rest →
    ∃ r, step s = .next
      { params := s.params
        banks := s.banks.map fun b =>
          { conf := b.conf, measuredRpm := 0, targetRpm := b.conf.rpmMin, lastEdgeTime := 0, edgeSeen := false,
            stallEvt := false, tachoOk := false, adcOk := false, pwmOk := false }
        loopState := .init, tempOk := false, tempValid := false, lastTemp := 0, seq := .idle, cycleNow := 0,
        faultCause := 0, hist := s.hist, inputs := rest, held := [], answer := none, resp := r }

/-! Loop state and holds. -/

/-- spec/45_control_loop.md R133: INIT_CH and INIT_DONE fault WRONG_STATE (code 5) in RUNNING, with no other effect;
in INIT they record no fault. The event's word, `encode i`, is the model's reading (notes/assumptions/10.md). -/
def Obligations.InitCommandsLegalInInitOnly : Prop :=
  ∀ (s : State) (c : Chan) (fl : BitVec 3) (tv : Bool), s.configOk = true → c.toNat < s.nChannels →
    ∀ i ∈ [Instr.initCh c fl, .initDone tv],
      (s.loopState = .running →
        exec i s = .next { s with faultCause := if s.faultCause = 0 then 5 else s.faultCause
                                  hist := s.hist ++ [.fault 5 (encode i)]
                                  resp := some 0 }) ∧
      (s.loopState = .init → ∃ u, exec i s = .next u ∧ u.faultCause = s.faultCause)

/-- spec/45_control_loop.md R134: PERIOD, STALL, MAP, DUTY, TEMP and LOG fault WRONG_STATE (code 5) in INIT, with no
other effect, and record no fault in RUNNING; EDGE and RDREG record no fault in either state. The event's word, `encode i`, is
the model's reading (notes/assumptions/10.md). -/
def Obligations.PeriodicCommandsLegalInRunningOnly : Prop :=
  ∀ (s : State) (c : Chan) (now mv t : Word) (v rdy tv : Bool) (r : Reg), s.configOk = true → c.toNat < s.nChannels →
    (∀ i ∈ [Instr.period now, .stall c now, .map c v mv, .duty c rdy, .temp tv t, .log],
      (s.loopState = .init →
        exec i s = .next { s with faultCause := if s.faultCause = 0 then 5 else s.faultCause
                                  hist := s.hist ++ [.fault 5 (encode i)]
                                  resp := some 0 }) ∧
      (s.loopState = .running → ∃ u, exec i s = .next u ∧ u.faultCause = s.faultCause)) ∧
    ∀ i ∈ [Instr.edge c now, .rdreg c r], i.wf s.nChannels = true →
      ∃ u, exec i s = .next u ∧ u.hist = s.hist ∧ u.faultCause = s.faultCause

/-- spec/45_control_loop.md R137, R138: PERIOD and the direct micro-operations are held while a cycle runs: nothing
changes but that the command stays presented, and it has no response yet. EDGE and RDREG are never held. That held
commands keep their order, in decoded form, is the model's choice (notes/assumptions/5.md, 19.md). -/
def Obligations.CommandsHeldWhileCycleRuns : Prop :=
  ∀ (s : State) (c : Chan) (now mv t : Word) (v rdy tv : Bool) (r : Reg), s.configOk = true → c.toNat < s.nChannels →
    (s.loopState = .running → s.seq ≠ .idle →
      ∀ i ∈ [Instr.period now, .stall c now, .map c v mv, .duty c rdy, .temp tv t, .log],
        exec i s = .next { s with held := s.held ++ [i], resp := none }) ∧
    ∀ i ∈ [Instr.edge c now, .rdreg c r], ∃ u, exec i s = .next u ∧ u.held = s.held

/-- A command on hold is accepted in the main agent's first step at which the sequencer is at IDLE
(spec/45_control_loop.md R137). That the oldest goes first, and before a word the main agent presents then, is the
model's choice (notes/assumptions/5.md), and so is that an empty script is the main agent's turn
(notes/assumptions/4.md). -/
def Obligations.OldestHeldCommandAcceptedAtIdle : Prop :=
  ∀ (s : State) (i : Instr) (later : List Instr), s.configOk = true → s.seq = .idle → s.held = i :: later →
    (s.inputs = [] → step s = exec i { s with held := later, resp := none }) ∧
    (∀ rest, s.inputs = .turn :: rest → step s = exec i { s with inputs := rest, held := later, resp := none }) ∧
    (∀ w rest, s.inputs = .command .main w :: rest → step s = exec i { s with held := later, resp := none })

/-- spec/30_encoding.md R95: a command on hold has no response and nothing else about it changed; every other command
has one at once, which is 0 but for RDREG's and DUTY's. -/
def Obligations.EveryCommandRespondsOrIsHeld : Prop :=
  ∀ (s t : State) (i : Instr), exec i s = .next t →
    (t = { s with held := s.held ++ [i], resp := none } ∧ s.seq ≠ .idle) ∨
    (t.held = s.held ∧ ∃ v, t.resp = some v ∧
      ((∀ c r, i ≠ .rdreg c r) → (∀ c rdy, i ≠ .duty c rdy) → v = 0))

/-! INIT. -/

/-- spec/45_control_loop.md R131: INIT_CH in INIT. -/
def Obligations.InitChRecordsResults : Prop :=
  ∀ (s : State) (c : Chan) (fl : BitVec 3) (b : Bank), s.configOk = true → s.banks[c.toNat]? = some b →
    s.loopState = .init →
    exec (.initCh c fl) s = .next
      { s with banks := s.banks.set c.toNat
                 { b with tachoOk := fl.getLsbD 0, adcOk := fl.getLsbD 1, pwmOk := fl.getLsbD 2 }
               hist := s.hist ++ (if fl = 0b111 then [] else [.initFail c (0b111 - fl)])
               resp := some 0 }

/-- spec/45_control_loop.md R132: INIT_DONE in INIT. -/
def Obligations.InitDoneEntersRunning : Prop :=
  ∀ (s : State) (tv : Bool), s.configOk = true → s.loopState = .init →
    exec (.initDone tv) s = .next
      { s with tempOk := tv
               loopState := .running
               hist := s.hist ++ (if tv then [] else [.tempInitFail])
               resp := some 0 }

/-- spec/30_encoding.md R99: INIT_ALL, run in INIT, leaves RUNNING with every channel's ok bits and the temperature bit
as given. -/
def Obligations.InitAllInitialisesEveryChannel : Prop :=
  ∀ (s : State) (fl : BitVec 3) (tv : Bool), s.configOk = true → s.loopState = .init →
    ∃ t, runCommands (initAll s.nChannels fl tv) s = .next t ∧ t.loopState = .running ∧ t.tempOk = tv ∧
      t.banks = s.banks.map fun b =>
        { b with tachoOk := fl.getLsbD 0, adcOk := fl.getLsbD 1, pwmOk := fl.getLsbD 2 }

/-! EDGE. -/

/-- spec/41_tachometer.md R106: without an initialised tachometer EDGE has no effect. -/
def Obligations.EdgeWithoutTachoHasNoEffect : Prop :=
  ∀ (s : State) (c : Chan) (now : Word) (b : Bank), s.configOk = true → s.banks[c.toNat]? = some b →
    b.tachoOk = false → exec (.edge c now) s = .next { s with resp := some 0 }

/-- spec/41_tachometer.md R107: the first recorded edge sets the time and the bit, and leaves measured_rpm. -/
def Obligations.FirstEdgeRecordsTimeOnly : Prop :=
  ∀ (s : State) (c : Chan) (now : Word) (b : Bank), s.configOk = true → s.banks[c.toNat]? = some b →
    b.tachoOk = true → b.edgeSeen = false →
    exec (.edge c now) s = .next
      { s with banks := s.banks.set c.toNat { b with lastEdgeTime := now, edgeSeen := true }, resp := some 0 }

/-- spec/41_tachometer.md R108: an edge `d` ticks after the last, `0 < d < 2^31`, across the wrap or not, writes
`(MS_PER_MIN / PPR) / d`. -/
def Obligations.EdgeMeasuresPositiveInterval : Prop :=
  ∀ (s : State) (c : Chan) (now : Word) (b : Bank) (d : Nat), s.configOk = true → s.banks[c.toNat]? = some b →
    b.tachoOk = true → b.edgeSeen = true → 0 < d → d < 2 ^ 31 → now = b.lastEdgeTime + BitVec.ofNat 32 d →
    ∃ rpm : Word, rpm.toNat = s.params.msPerMin.toNat / s.params.ppr.toNat / d ∧
      exec (.edge c now) s = .next
        { s with banks := s.banks.set c.toNat { b with measuredRpm := rpm, lastEdgeTime := now, edgeSeen := true }
                 resp := some 0 }

/-- spec/41_tachometer.md R111 (derived there), the document's own property: from any state, an edge at `x` and one `d`
later leave `MS_PER_MIN / (PPR * d)`. -/
def Obligations.TwoEdgesGiveTheRpm : Prop :=
  ∀ (s : State) (c : Chan) (x : Word) (b : Bank) (d : Nat), s.configOk = true → s.banks[c.toNat]? = some b →
    b.tachoOk = true → 0 < d → d < 2 ^ 31 →
    ∃ t b', runCommands [.edge c x, .edge c (x + BitVec.ofNat 32 d)] s = .next t ∧ t.banks[c.toNat]? = some b' ∧
      b'.measuredRpm.toNat = s.params.msPerMin.toNat / (s.params.ppr.toNat * d)

/-- spec/41_tachometer.md R109, R110: a duplicate timestamp, or a tick behind the last edge by 1 to `2^31`, leaves
measured_rpm and still moves last_edge_time. -/
def Obligations.EdgeRejectsOtherInterval : Prop :=
  ∀ (s : State) (c : Chan) (now : Word) (b : Bank) (d : Nat), s.configOk = true → s.banks[c.toNat]? = some b →
    b.tachoOk = true → b.edgeSeen = true → d ≤ 2 ^ 31 → now = b.lastEdgeTime - BitVec.ofNat 32 d →
    exec (.edge c now) s = .next
      { s with banks := s.banks.set c.toNat { b with lastEdgeTime := now, edgeSeen := true }, resp := some 0 }

/-- spec/10_state.md R52, spec/60_exceptions.md R162: whatever an EDGE does, it writes only the reading, the edge time
and the edge bit of its own bank: every global field, the event history and every other bank are as before. -/
def Obligations.EdgeFrame : Prop :=
  ∀ (s t : State) (c : Chan) (now : Word) (b : Bank), s.banks[c.toNat]? = some b → exec (.edge c now) s = .next t →
    ∃ m l e, t = { s with banks := s.banks.set c.toNat { b with measuredRpm := m, lastEdgeTime := l, edgeSeen := e }
                          resp := some 0 }

/-- spec/60_exceptions.md R161 (derived there): EDGEs of different channels may go in either order with the same final
state. -/
def Obligations.EdgesOfDifferentChannelsCommute : Prop :=
  ∀ (s : State) (c d : Chan) (x y : Word), c ≠ d → s.configOk = true → c.toNat < s.nChannels → d.toNat < s.nChannels →
    ∃ t, runCommands [.edge c x, .edge d y] s = .next t ∧ runCommands [.edge d y, .edge c x] s = .next t

/-- spec/10_state.md R34 (derived there): while `edge_seen = 0` (so by R38 measured_rpm is 0) the edge time affects no
result of EDGE or STALL. -/
def Obligations.EdgeTimeIrrelevantBeforeFirstEdge : Prop :=
  ∀ (s : State) (c : Chan) (now x : Word) (b : Bank), s.configOk = true → s.banks[c.toNat]? = some b →
    b.edgeSeen = false → b.measuredRpm = 0 →
    (b.tachoOk = true → exec (.edge c now) (s.setBank c { b with lastEdgeTime := x }) = exec (.edge c now) s) ∧
    (s.loopState = .running → s.seq = .idle →
      exec (.stall c now) (s.setBank c { b with lastEdgeTime := x }) =
        .next { s.setBank c { b with lastEdgeTime := x } with resp := some 0 } ∧
      exec (.stall c now) s = .next { s with resp := some 0 })

/-! STALL. -/

/-- spec/42_stall.md R113 and R114: a stall is detected exactly when measured_rpm is nonzero and the signed difference
exceeds the timeout; else nothing changes. -/
def Obligations.StallDetection : Prop :=
  ∀ (s : State) (c : Chan) (now : Word) (b : Bank), s.configOk = true → s.banks[c.toNat]? = some b →
    s.loopState = .running → s.seq = .idle →
    exec (.stall c now) s =
      if b.measuredRpm ≠ 0 ∧ (s.params.stallTimeoutMs.toNat : Int) < (now - b.lastEdgeTime).toInt then
        .next { s with banks := s.banks.set c.toNat { b with measuredRpm := 0, stallEvt := true }
                       hist := s.hist ++ [.stall c]
                       resp := some 0 }
      else .next { s with resp := some 0 }

/-- spec/42_stall.md R116, R115 (R115 derived there): for a nonzero reading, a tick `d` after the last edge, across the
wrap or not, stalls exactly when `d` is above the timeout (`d < 2^31`), and a tick behind it never does. -/
def Obligations.StallByElapsedTime : Prop :=
  ∀ (s : State) (c : Chan) (now : Word) (b : Bank) (d : Nat), s.configOk = true → s.banks[c.toNat]? = some b →
    s.loopState = .running → s.seq = .idle → b.measuredRpm ≠ 0 →
    (s.params.stallTimeoutMs.toNat < d → d < 2 ^ 31 → now = b.lastEdgeTime + BitVec.ofNat 32 d →
      exec (.stall c now) s = .next
        { s with banks := s.banks.set c.toNat { b with measuredRpm := 0, stallEvt := true }
                 hist := s.hist ++ [.stall c]
                 resp := some 0 }) ∧
    (d ≤ s.params.stallTimeoutMs.toNat → now = b.lastEdgeTime + BitVec.ofNat 32 d →
      exec (.stall c now) s = .next { s with resp := some 0 }) ∧
    (d ≤ 2 ^ 31 → now = b.lastEdgeTime - BitVec.ofNat 32 d → exec (.stall c now) s = .next { s with resp := some 0 })

/-- spec/42_stall.md R117 (derived there): after a stall was detected, another STALL of the channel, at any tick,
changes nothing. -/
def Obligations.StallReportedOnce : Prop :=
  ∀ (s t : State) (c : Chan) (now later : Word), s.seq = .idle → s.loopState = .running →
    exec (.stall c now) s = .next t → t.hist = s.hist ++ [.stall c] →
    exec (.stall c later) t = .next { t with resp := some 0 }

/-- spec/70_reset_and_hazards.md R188 (derived there): an EDGE just before the STALL of its channel makes the STALL a
no-op, if the STALL's tick is within the timeout of the EDGE's. -/
def Obligations.EdgeBeforeStallPreventsIt : Prop :=
  ∀ (s t : State) (c : Chan) (x now : Word) (b : Bank), s.banks[c.toNat]? = some b → b.tachoOk = true →
    s.loopState = .running → s.seq = .idle → exec (.edge c x) s = .next t →
    (now - x).toInt ≤ s.params.stallTimeoutMs.toNat → exec (.stall c now) t = .next { t with resp := some 0 }

/-! MAP. -/

/-- spec/43_target.md R121, R122: a valid sample writes `RPM_MAX * mv / FULL_SCALE_MV`, exact and truncated, clamped to
the bounds; and nothing else changes (R123). -/
def Obligations.MapWritesClampedTarget : Prop :=
  ∀ (s : State) (c : Chan) (mv : Word) (b : Bank), s.configOk = true → s.banks[c.toNat]? = some b →
    s.loopState = .running → s.seq = .idle → b.adcOk = true →
    ∃ t : Word,
      t.toNat = (let q := b.conf.rpmMax.toNat * mv.toNat / b.conf.fullScaleMv.toNat
        if q < b.conf.rpmMin.toNat then b.conf.rpmMin.toNat
        else if b.conf.rpmMax.toNat < q then b.conf.rpmMax.toNat else q) ∧
      exec (.map c true mv) s = .next
        { s with banks := s.banks.set c.toNat { b with targetRpm := t }, resp := some 0 }

/-- spec/43_target.md R124 (derived there): 0 mV gives RPM_MIN, full scale and above give RPM_MAX. -/
def Obligations.MapEndpoints : Prop :=
  ∀ (s : State) (c : Chan) (mv : Word) (b : Bank), s.configOk = true → s.banks[c.toNat]? = some b →
    s.loopState = .running → s.seq = .idle → b.adcOk = true →
    (mv = 0 → exec (.map c true mv) s = .next
      { s with banks := s.banks.set c.toNat { b with targetRpm := b.conf.rpmMin }, resp := some 0 }) ∧
    (b.conf.fullScaleMv.toNat ≤ mv.toNat → exec (.map c true mv) s = .next
      { s with banks := s.banks.set c.toNat { b with targetRpm := b.conf.rpmMax }, resp := some 0 })

/-- spec/43_target.md R119, R120: without an initialised ADC, MAP has no effect; a failed sample only warns, and its
operand is ignored. -/
def Obligations.MapWithoutSampleKeepsTarget : Prop :=
  ∀ (s : State) (c : Chan) (v : Bool) (mv : Word) (b : Bank), s.configOk = true → s.banks[c.toNat]? = some b →
    s.loopState = .running → s.seq = .idle →
    (b.adcOk = false → exec (.map c v mv) s = .next { s with resp := some 0 }) ∧
    (b.adcOk = true → v = false →
      exec (.map c v mv) s = .next { s with hist := s.hist ++ [.adcWarn c], resp := some 0 })

/-! DUTY. -/

/-- spec/44_duty.md R127, R128: with the PWM output initialised, DUTY computes `PWM_PERIOD * target_rpm / RPM_MAX`, at
most the period, emits the commit or its failure, responds the pulse length and changes no field. The premise on the
target is the invariant R38 (ii). -/
def Obligations.DutyCommitsPulse : Prop :=
  ∀ (s : State) (c : Chan) (rdy : Bool) (b : Bank), s.configOk = true → s.banks[c.toNat]? = some b →
    s.loopState = .running → s.seq = .idle → b.pwmOk = true → b.targetRpm.toNat ≤ b.conf.rpmMax.toNat →
    ∃ p : Word, p.toNat = b.conf.pwmPeriod.toNat * b.targetRpm.toNat / b.conf.rpmMax.toNat ∧
      p.toNat ≤ b.conf.pwmPeriod.toNat ∧
      exec (.duty c rdy) s = .next
        { s with hist := s.hist ++ [if rdy then .pwmCommit c p else .pwmFail c p], resp := some p }

/-- spec/44_duty.md R126: without an initialised PWM output, DUTY has no effect and responds 0. -/
def Obligations.DutySkippedWithoutPwm : Prop :=
  ∀ (s : State) (c : Chan) (rdy : Bool) (b : Bank), s.configOk = true → s.banks[c.toNat]? = some b →
    s.loopState = .running → s.seq = .idle → b.pwmOk = false → exec (.duty c rdy) s = .next { s with resp := some 0 }

/-- spec/44_duty.md R129 (derived there): two DUTYs of a channel with any EDGE and any STALL between them respond the
same pulse length. -/
def Obligations.DutyRepeatsItsPulse : Prop :=
  ∀ (s t u v w : State) (c d : Chan) (rdy rdy' : Bool) (x : Word) (i : Instr), s.seq = .idle →
    (i = .edge d x ∨ i = .stall d x) → exec (.duty c rdy) s = .next t → exec i t = .next u →
    exec (.duty c rdy') u = .next v → exec (.duty c rdy') v = .next w → v.resp = t.resp ∧ w.resp = t.resp

/-! PERIOD, TEMP, LOG, RDREG. -/

/-- spec/45_control_loop.md R136: PERIOD latches its tick and starts the sequencer. -/
def Obligations.PeriodStartsCycle : Prop :=
  ∀ (s : State) (now : Word), s.configOk = true → s.loopState = .running → s.seq = .idle →
    exec (.period now) s = .next { s with cycleNow := now, seq := .stall 0, resp := some 0 }

/-- spec/45_control_loop.md R144: TEMP: skipped, or a valid sample, or a failed one that keeps the value. -/
def Obligations.TempRecordsSample : Prop :=
  ∀ (s : State) (tv : Bool) (t : Word), s.configOk = true → s.loopState = .running → s.seq = .idle →
    exec (.temp tv t) s =
      if s.tempOk = false then .next { s with resp := some 0 }
      else if tv = true then .next { s with tempValid := true, lastTemp := t, resp := some 0 }
      else .next { s with hist := s.hist ++ [.tempWarn], resp := some 0 }

/-- spec/45_control_loop.md R145: LOG emits one line per channel, in increasing order, from one snapshot, and clears
every stall bit. -/
def Obligations.LogReportsEveryChannel : Prop :=
  ∀ (s : State), s.configOk = true → s.loopState = .running → s.seq = .idle →
    ∃ t, exec .log s = .next t ∧
      t = { s with banks := s.banks.map fun b => { b with stallEvt := false }, hist := t.hist, resp := some 0 } ∧
      t.hist.length = s.hist.length + s.nChannels ∧ t.hist.take s.hist.length = s.hist ∧
      ∀ (c : Nat) (b : Bank), s.banks[c]? = some b →
        t.hist[s.hist.length + c]? =
          some (.log (BitVec.ofNat 8 c) b.measuredRpm b.targetRpm b.stallEvt s.tempValid s.lastTemp)

/-- spec/20_memory.md R62, R63: RDREG of each per-channel register, in any loop state and at any position. -/
def Obligations.RdregReadsChannelRegister : Prop :=
  ∀ (s : State) (c : Chan) (r : ChanReg) (b : Bank), s.configOk = true → s.banks[c.toNat]? = some b →
    ∃ v : Word, exec (.rdreg c (.chan r)) s = .next { s with resp := some v } ∧
      match r with
      | .measuredRpm => v = b.measuredRpm
      | .targetRpm => v = b.targetRpm
      | .lastEdgeTime => v = b.lastEdgeTime
      | .cstatus => v.toNat = b.edgeSeen.toNat + 2 * b.tachoOk.toNat + 4 * b.adcOk.toNat + 8 * b.pwmOk.toNat +
          16 * b.stallEvt.toNat
      | .rpmMax => v = b.conf.rpmMax
      | .rpmMin => v = b.conf.rpmMin
      | .pwmPeriod => v = b.conf.pwmPeriod
      | .fullScaleMv => v = b.conf.fullScaleMv

/-- spec/20_memory.md R62, R64: RDREG of each global register, in any loop state and at any position. -/
def Obligations.RdregReadsGlobalRegister : Prop :=
  ∀ (s : State) (r : GlobReg), s.configOk = true →
    ∃ v : Word, exec (.rdreg 0 (.glob r)) s = .next { s with resp := some v } ∧
      match r with
      | .gstatus => v.toNat = (if s.loopState = .running then 1 else 0) + 2 * s.tempOk.toNat +
          4 * s.tempValid.toNat + (if s.seq = .idle then 0 else 8) + 256 * s.faultCause.toNat
      | .lastTemp => v = s.lastTemp
      | .nchan => v.toNat = s.banks.length
      | .cycleNow => v = s.cycleNow
      | .stallTimeout => v = s.params.stallTimeoutMs
      | .ppr => v = s.params.ppr

/-! The sequencer. -/

/-- spec/45_control_loop.md R141 (derived there): a sequencer step does to the state what the direct command with the
same operands does, and then moves on as R139 says. That the answer waits in a field of the state is the model's choice
(notes/assumptions/3.md). -/
def Obligations.SequencerStepIsDirectCommand : Prop :=
  ∀ (s : State) (c : Chan) (v tv : Bool) (mv t : Word), s.configOk = true → s.loopState = .running →
    c.toNat < s.nChannels →
    let direct (i : Instr) (p : SeqPos) :=
      ∃ u, exec i { s with seq := .idle } = .next u ∧
        sequencerStep s = .next { u with seq := p, answer := none, resp := s.resp }
    (s.seq = .stall c → direct (.stall c s.cycleNow) (.map c)) ∧
    (s.seq = .map c → s.answer = some (.adc v mv) → direct (.map c v mv) (.duty c)) ∧
    (s.seq = .duty c → s.answer = some (.pwm v) →
      direct (.duty c v) (if c.toNat + 1 < s.nChannels then .stall (c + 1) else .temp)) ∧
    (s.seq = .temp → s.answer = some (.temp tv t) → direct (.temp tv t) .log) ∧
    (s.seq = .log → direct .log .idle)

/-- spec/45_control_loop.md R139: while a cycle runs, a step leaves the position or moves it to the table's next one;
only a reset does otherwise. -/
def Obligations.CycleFollowsTheTable : Prop :=
  ∀ (s t : State), s.seq ≠ .idle → s.inputs.head? ≠ some .reset → step s = .next t →
    t.seq = s.seq ∨ t.seq = SeqPos.next s.nChannels s.seq

/-- spec/45_control_loop.md R139: a position whose ok bit is 0 draws nothing and skips its operation; without a script
the main agent takes the step by itself (notes/assumptions/4.md). -/
def Obligations.SkippedSubsystemDrawsNothing : Prop :=
  ∀ (s : State) (c : Chan) (b : Bank), s.configOk = true → s.inputs = [] → s.banks[c.toNat]? = some b →
    (s.seq = .map c → b.adcOk = false → step s = .next { s with seq := .duty c, answer := none, resp := none }) ∧
    (s.seq = .duty c → b.pwmOk = false →
      step s = .next { s with seq := if c.toNat + 1 < s.nChannels then .stall (c + 1) else .temp
                              answer := none, resp := none }) ∧
    (s.seq = .temp → s.tempOk = false → step s = .next { s with seq := .log, answer := none, resp := none })

/-- spec/45_control_loop.md R142: while the sequencer's request is unanswered, every step but an answer or a reset
leaves it at its position, still waiting, and no command on hold is accepted. The rule says that the sequencer has no step
then; that the main agent's turn is a step that changes nothing is the model's reading (notes/assumptions/20.md). -/
def Obligations.UnansweredRequestIsStuck : Prop :=
  ∀ (s t : State), s.Inv → s.waiting = true → (∀ r, s.inputs.head? ≠ some (.answer r)) →
    s.inputs.head? ≠ some .reset → step s = .next t →
    t.seq = s.seq ∧ t.waiting = true ∧ s.held <+: t.held

/-- spec/45_control_loop.md R150: with every request answered, a cycle returns to IDLE, not before the end of its
script, in exactly `3 * N_CHANNELS + 2` sequencer steps. The script is the model's choice (notes/assumptions/3.md), and so
is that an answer it holds for a skipped position, which nobody requested, has no effect (notes/assumptions/7.md). -/
def Obligations.CycleTakesThreePerChannelPlusTwoSteps : Prop :=
  ∀ (s : State) (ds : List Draw) (tv : Bool) (t : Word) (rest : List Input),
    s.configOk = true → s.seq = .stall 0 → s.answer = none → ds.length = s.nChannels →
    s.inputs = cycleScript ds tv t ++ rest →
    (cycleScript ds tv t).count .turn = 3 * s.nChannels + 2 ∧
    (∃ u, runSteps (cycleScript ds tv t).length s = .next u ∧ u.seq = .idle ∧ u.inputs = rest) ∧
    ∀ k < (cycleScript ds tv t).length, ∃ u, runSteps k s = .next u ∧ u.seq ≠ .idle

/-- spec/30_encoding.md R100 (derived there): the commands of `CYCLE now, …` leave the same banks, temperature and
events as `PERIOD now` and the whole cycle with the same responses; only `G.cycle_now` differs, beside the response
port and the script. The script is the model's choice (notes/assumptions/3.md), and so is that an answer it holds for a
skipped position, which nobody requested, has no effect (notes/assumptions/7.md). -/
def Obligations.CycleCommandsEqualPeriodCycle : Prop :=
  ∀ (s : State) (now : Word) (ds : List Draw) (tv : Bool) (t : Word),
    s.configOk = true → s.loopState = .running → s.seq = .idle → s.answer = none → s.held = [] →
    ds.length = s.nChannels → s.inputs = [] →
    ∃ p u v, exec (.period now) { s with inputs := cycleScript ds tv t } = .next p ∧
      runSteps (cycleScript ds tv t).length p = .next u ∧
      runCommands (cycle now ds tv t) s = .next v ∧
      u = { v with cycleNow := now, resp := u.resp }

/-! The whole machine. -/

/-- The invariant: spec/10_state.md R38 with spec/45_control_loop.md R141 (both derived there) and spec/00_scope.md
R15, over every state and every input. -/
def Obligations.StepKeepsInvariant : Prop :=
  ∀ (s t : State), s.Inv → step s = .next t → t.Inv

/-- The block of every well-formed configuration meets the invariant at power-on. -/
def Obligations.PowerOnMeetsInvariant : Prop :=
  ∀ cfg : Config, cfg.wf = true → (State.powerOn cfg).Inv

/-- spec/60_exceptions.md R157, R156 (R156 derived there): nothing stops the block: from a state that meets the
invariant every step, whatever its input, answers a next state. Where the rules give no step, the model still answers a
next state: at an unanswered request one that leaves the sequencer as it is (R142 says that the sequencer has no step then;
notes/assumptions/20.md), and with an empty script the main agent's turn, or the same state (notes/assumptions/4.md); an
answer nobody requested has no effect (notes/assumptions/7.md). -/
def Obligations.NothingIsFatal : Prop :=
  ∀ s : State, s.Inv → ∃ t, step s = .next t

/-- spec/10_state.md R49: "No step removes or reorders an event"; what is emitted is appended at the end. -/
def Obligations.HistoryOnlyGrows : Prop :=
  ∀ (s t : State), step s = .next t → s.hist <+: t.hist

/-- spec/10_state.md R39, spec/20_memory.md R65: no step, a reset included, changes the configuration. -/
def Obligations.ConfigurationNeverChanges : Prop :=
  ∀ (s t : State), step s = .next t → t.config = s.config

/-- spec/10_state.md R46: the fault cause is sticky; only reset clears it. -/
def Obligations.FirstFaultCauseIsSticky : Prop :=
  ∀ (s t : State), s.faultCause ≠ 0 → s.inputs.head? ≠ some .reset → step s = .next t → t.faultCause = s.faultCause

/-- spec/45_control_loop.md R147, and R148 as derived there: RUNNING is terminal and in it every ok bit keeps its
value; only a reset does otherwise. -/
def Obligations.RunningIsTerminal : Prop :=
  ∀ (s t : State), s.loopState = .running → s.inputs.head? ≠ some .reset → step s = .next t →
    t.loopState = .running ∧ t.tempOk = s.tempOk ∧
      t.banks.map (fun b => (b.tachoOk, b.adcOk, b.pwmOk)) = s.banks.map (fun b => (b.tachoOk, b.adcOk, b.pwmOk))

/-- spec/10_state.md R35: edge_seen, once 1, is cleared by reset only. -/
def Obligations.EdgeSeenClearedByResetOnly : Prop :=
  ∀ (s t : State) (c : Nat) (b : Bank), s.banks[c]? = some b → b.edgeSeen = true →
    s.inputs.head? ≠ some .reset → step s = .next t → ∃ b', t.banks[c]? = some b' ∧ b'.edgeSeen = true

/-- spec/10_state.md R40, spec/43_target.md R123: a command that names a channel changes no other bank, and one that
names none changes no bank but for LOG's stall bits. -/
def Obligations.CommandChangesNoOtherBank : Prop :=
  ∀ (s t : State) (c k : Chan) (fl : BitVec 3) (now mv : Word) (v rdy tv : Bool) (r : Reg),
    (∀ i ∈ [Instr.initCh c fl, .edge c now, .stall c now, .map c v mv, .duty c rdy, .rdreg c r],
      exec i s = .next t → k ≠ c → t.banks[k.toNat]? = s.banks[k.toNat]?) ∧
    (∀ i ∈ [Instr.initDone tv, .period now, .temp tv mv], exec i s = .next t → t.banks = s.banks)

/-- spec/00_scope.md R13: CONTROL_PERIOD_MS is documentation only: changing it changes no step. -/
def Obligations.ControlPeriodIsDocumentationOnly : Prop :=
  ∀ (s : State) (p : Nat),
    step (s.withControlPeriod p) =
      match step s with
      | .next t => .next (t.withControlPeriod p)
      | .fault f => .fault f
      | .refused r => .refused r

/-- spec/20_memory.md R74, R75: eight bytes, least significant first, decode as their command word, and any other
number of bytes is no command. -/
def Obligations.BytesDecodeAsTheirWord : Prop :=
  ∀ n : Nat, (∀ w : CmdWord, decodeBytes n (wordBytes w) = some (decode n w)) ∧
    ∀ bs : List (BitVec 8), bs.length ≠ 8 → decodeBytes n bs = none
end

