-- ==== Sys2Proof/Laws/Decode.lean ====
section
/-! SUPPORT. The pieces decoding and encoding are made of undo each other: the fields of a word (spec/30_encoding.md
R81, R82), the opcode map (R89) and the register selects (spec/20_memory.md R61). -/

namespace Sys2Proof

/-- Reading the fields of the word they form gives them back. -/
@[simp] theorem Fields.ofWord_toWord (f : Fields) : Fields.ofWord f.toWord = f := by
  rcases f with ⟨op, v, fl, ch, rs, rsv, opnd⟩
  simp only [Fields.ofWord, Fields.toWord, Fields.mk.injEq]
  refine ⟨?_, ?_, ?_, ?_, ?_, ?_, ?_⟩ <;> apply BitVec.eq_of_getLsbD_eq <;> intro i hi <;>
    simp only [BitVec.getLsbD_extractLsb', BitVec.getLsbD_append, hi, decide_true, Bool.true_and] <;>
    (repeat' split) <;> first | omega | (congr 1; omega)

/-- The fields of a word form it: no bit of a word lies outside them. -/
@[simp] theorem Fields.toWord_ofWord (w : CmdWord) : (Fields.ofWord w).toWord = w := by
  simp only [Fields.ofWord, Fields.toWord]
  apply BitVec.eq_of_getLsbD_eq
  intro i hi
  simp only [BitVec.getLsbD_extractLsb', BitVec.getLsbD_append]
  repeat' split
  all_goals
    rw [decide_eq_true (by omega), Bool.true_and]
    congr 1
    omega

@[simp] theorem Opcode.ofBits_bits (o : Opcode) : Opcode.ofBits o.bits = some o := by
  cases o <;> rfl

/-- An opcode is read from its own number only. -/
theorem Opcode.bits_of_ofBits {op : BitVec 4} {o : Opcode} (h : Opcode.ofBits op = some o) : o.bits = op := by
  revert o
  revert op
  decide +revert

@[simp] theorem Reg.ofRs_rs (r : Reg) : Reg.ofRs r.rs = some r := by
  rcases r with r | r <;> cases r <;> rfl

/-- A register is named by its own select only. -/
theorem Reg.rs_of_ofRs {rs : BitVec 8} {r : Reg} (h : Reg.ofRs rs = some r) : r.rs = rs := by
  unfold Reg.ofRs at h
  split at h
  all_goals first
    | cases h; done
    | (cases h; apply BitVec.eq_of_toNat_eq; simp only [*]; rfl)

/-- The decoder's operand checks are exactly well-formedness. -/
theorem operandFault_eq_none_iff (n : Nat) (i : Instr) : operandFault n i = none ↔ i.wf n = true := by
  rcases i with _ | _ | _ | _ | _ | _ | _ | _ | _ | ⟨c, r | r⟩ <;> simp [operandFault, Instr.wf]

/-- Everything `decode` can do when it answers a command. -/
theorem decode_cmd_cases {n : Nat} {w : CmdWord} {i : Instr} (h : decode n w = .cmd i) :
    ∃ o, Opcode.ofBits (Fields.ofWord w).op = some o ∧ o.reservedNonzero (Fields.ofWord w) = false ∧
      o.command (Fields.ofWord w) = some i ∧ i.wf n = true := by
  unfold decode at h
  split at h
  · cases h
  · rename_i o ho
    split at h
    · cases h
    · rename_i hr
      split at h
      · cases h
      · rename_i j hj
        split at h
        · cases h
        · rename_i hf
          cases h
          exact ⟨o, ho, by simpa using hr, hj, (operandFault_eq_none_iff n i).1 hf⟩

/-- RSV and every field the opcode leaves unused are 0 in a word that passes the field check (R91). -/
theorem Opcode.unused_zero {o : Opcode} {f : Fields} (h : o.reservedNonzero f = false) :
    f.rsv = 0 ∧ ∀ x, o.uses x = false → f.isZero x = true := by
  simp only [Opcode.reservedNonzero, Bool.or_eq_false_iff, bne_eq_false_iff_eq, List.any_eq_false] at h
  refine ⟨h.1, fun x hx => ?_⟩
  have := h.2 x (by cases x <;> simp)
  simpa [hx] using this

end Sys2Proof
end

