-- ==== Sys2Proof/Laws/State.lean ====
section
/-! SUPPORT. What each update of the state leaves in each field, one lemma per field per update. -/

namespace Sys2Proof.Machine

variable (s : State)

/-! setBank -/

@[simp] theorem State.setBank_params (c : Chan) (b : Bank) : (s.setBank c b).params = s.params := rfl
@[simp] theorem State.setBank_banks (c : Chan) (b : Bank) : (s.setBank c b).banks = s.banks.set c.toNat b := rfl
@[simp] theorem State.setBank_loopState (c : Chan) (b : Bank) : (s.setBank c b).loopState = s.loopState := rfl
@[simp] theorem State.setBank_tempOk (c : Chan) (b : Bank) : (s.setBank c b).tempOk = s.tempOk := rfl
@[simp] theorem State.setBank_tempValid (c : Chan) (b : Bank) : (s.setBank c b).tempValid = s.tempValid := rfl
@[simp] theorem State.setBank_lastTemp (c : Chan) (b : Bank) : (s.setBank c b).lastTemp = s.lastTemp := rfl
@[simp] theorem State.setBank_seq (c : Chan) (b : Bank) : (s.setBank c b).seq = s.seq := rfl
@[simp] theorem State.setBank_cycleNow (c : Chan) (b : Bank) : (s.setBank c b).cycleNow = s.cycleNow := rfl
@[simp] theorem State.setBank_faultCause (c : Chan) (b : Bank) : (s.setBank c b).faultCause = s.faultCause := rfl
@[simp] theorem State.setBank_hist (c : Chan) (b : Bank) : (s.setBank c b).hist = s.hist := rfl
@[simp] theorem State.setBank_inputs (c : Chan) (b : Bank) : (s.setBank c b).inputs = s.inputs := rfl
@[simp] theorem State.setBank_held (c : Chan) (b : Bank) : (s.setBank c b).held = s.held := rfl
@[simp] theorem State.setBank_answer (c : Chan) (b : Bank) : (s.setBank c b).answer = s.answer := rfl
@[simp] theorem State.setBank_resp (c : Chan) (b : Bank) : (s.setBank c b).resp = s.resp := rfl

/-! emit -/

@[simp] theorem State.emit_params (es : List Event) : (s.emit es).params = s.params := rfl
@[simp] theorem State.emit_banks (es : List Event) : (s.emit es).banks = s.banks := rfl
@[simp] theorem State.emit_loopState (es : List Event) : (s.emit es).loopState = s.loopState := rfl
@[simp] theorem State.emit_tempOk (es : List Event) : (s.emit es).tempOk = s.tempOk := rfl
@[simp] theorem State.emit_tempValid (es : List Event) : (s.emit es).tempValid = s.tempValid := rfl
@[simp] theorem State.emit_lastTemp (es : List Event) : (s.emit es).lastTemp = s.lastTemp := rfl
@[simp] theorem State.emit_seq (es : List Event) : (s.emit es).seq = s.seq := rfl
@[simp] theorem State.emit_cycleNow (es : List Event) : (s.emit es).cycleNow = s.cycleNow := rfl
@[simp] theorem State.emit_faultCause (es : List Event) : (s.emit es).faultCause = s.faultCause := rfl
@[simp] theorem State.emit_hist (es : List Event) : (s.emit es).hist = s.hist ++ es := rfl
@[simp] theorem State.emit_inputs (es : List Event) : (s.emit es).inputs = s.inputs := rfl
@[simp] theorem State.emit_held (es : List Event) : (s.emit es).held = s.held := rfl
@[simp] theorem State.emit_answer (es : List Event) : (s.emit es).answer = s.answer := rfl
@[simp] theorem State.emit_resp (es : List Event) : (s.emit es).resp = s.resp := rfl

/-! respond -/

@[simp] theorem State.respond_params (v : Word) : (s.respond v).params = s.params := rfl
@[simp] theorem State.respond_banks (v : Word) : (s.respond v).banks = s.banks := rfl
@[simp] theorem State.respond_loopState (v : Word) : (s.respond v).loopState = s.loopState := rfl
@[simp] theorem State.respond_tempOk (v : Word) : (s.respond v).tempOk = s.tempOk := rfl
@[simp] theorem State.respond_tempValid (v : Word) : (s.respond v).tempValid = s.tempValid := rfl
@[simp] theorem State.respond_lastTemp (v : Word) : (s.respond v).lastTemp = s.lastTemp := rfl
@[simp] theorem State.respond_seq (v : Word) : (s.respond v).seq = s.seq := rfl
@[simp] theorem State.respond_cycleNow (v : Word) : (s.respond v).cycleNow = s.cycleNow := rfl
@[simp] theorem State.respond_faultCause (v : Word) : (s.respond v).faultCause = s.faultCause := rfl
@[simp] theorem State.respond_hist (v : Word) : (s.respond v).hist = s.hist := rfl
@[simp] theorem State.respond_inputs (v : Word) : (s.respond v).inputs = s.inputs := rfl
@[simp] theorem State.respond_held (v : Word) : (s.respond v).held = s.held := rfl
@[simp] theorem State.respond_answer (v : Word) : (s.respond v).answer = s.answer := rfl
@[simp] theorem State.respond_resp (v : Word) : (s.respond v).resp = some v := rfl

/-! raise -/

@[simp] theorem State.raise_params (k : Cause) (w : CmdWord) : (s.raise k w).params = s.params := rfl
@[simp] theorem State.raise_banks (k : Cause) (w : CmdWord) : (s.raise k w).banks = s.banks := rfl
@[simp] theorem State.raise_loopState (k : Cause) (w : CmdWord) : (s.raise k w).loopState = s.loopState := rfl
@[simp] theorem State.raise_tempOk (k : Cause) (w : CmdWord) : (s.raise k w).tempOk = s.tempOk := rfl
@[simp] theorem State.raise_tempValid (k : Cause) (w : CmdWord) : (s.raise k w).tempValid = s.tempValid := rfl
@[simp] theorem State.raise_lastTemp (k : Cause) (w : CmdWord) : (s.raise k w).lastTemp = s.lastTemp := rfl
@[simp] theorem State.raise_seq (k : Cause) (w : CmdWord) : (s.raise k w).seq = s.seq := rfl
@[simp] theorem State.raise_cycleNow (k : Cause) (w : CmdWord) : (s.raise k w).cycleNow = s.cycleNow := rfl
@[simp] theorem State.raise_faultCause (k : Cause) (w : CmdWord) : (s.raise k w).faultCause = if s.faultCause = 0 then k.code else s.faultCause := rfl
@[simp] theorem State.raise_hist (k : Cause) (w : CmdWord) : (s.raise k w).hist = s.hist ++ [.fault k.code w] := rfl
@[simp] theorem State.raise_inputs (k : Cause) (w : CmdWord) : (s.raise k w).inputs = s.inputs := rfl
@[simp] theorem State.raise_held (k : Cause) (w : CmdWord) : (s.raise k w).held = s.held := rfl
@[simp] theorem State.raise_answer (k : Cause) (w : CmdWord) : (s.raise k w).answer = s.answer := rfl
@[simp] theorem State.raise_resp (k : Cause) (w : CmdWord) : (s.raise k w).resp = some 0 := rfl

/-! hold -/

@[simp] theorem State.hold_params (i : Instr) : (s.hold i).params = s.params := rfl
@[simp] theorem State.hold_banks (i : Instr) : (s.hold i).banks = s.banks := rfl
@[simp] theorem State.hold_loopState (i : Instr) : (s.hold i).loopState = s.loopState := rfl
@[simp] theorem State.hold_tempOk (i : Instr) : (s.hold i).tempOk = s.tempOk := rfl
@[simp] theorem State.hold_tempValid (i : Instr) : (s.hold i).tempValid = s.tempValid := rfl
@[simp] theorem State.hold_lastTemp (i : Instr) : (s.hold i).lastTemp = s.lastTemp := rfl
@[simp] theorem State.hold_seq (i : Instr) : (s.hold i).seq = s.seq := rfl
@[simp] theorem State.hold_cycleNow (i : Instr) : (s.hold i).cycleNow = s.cycleNow := rfl
@[simp] theorem State.hold_faultCause (i : Instr) : (s.hold i).faultCause = s.faultCause := rfl
@[simp] theorem State.hold_hist (i : Instr) : (s.hold i).hist = s.hist := rfl
@[simp] theorem State.hold_inputs (i : Instr) : (s.hold i).inputs = s.inputs := rfl
@[simp] theorem State.hold_held (i : Instr) : (s.hold i).held = s.held ++ [i] := rfl
@[simp] theorem State.hold_answer (i : Instr) : (s.hold i).answer = s.answer := rfl
@[simp] theorem State.hold_resp (i : Instr) : (s.hold i).resp = none := rfl

/-! advance -/

@[simp] theorem State.advance_params (p : SeqPos) : (s.advance p).params = s.params := rfl
@[simp] theorem State.advance_banks (p : SeqPos) : (s.advance p).banks = s.banks := rfl
@[simp] theorem State.advance_loopState (p : SeqPos) : (s.advance p).loopState = s.loopState := rfl
@[simp] theorem State.advance_tempOk (p : SeqPos) : (s.advance p).tempOk = s.tempOk := rfl
@[simp] theorem State.advance_tempValid (p : SeqPos) : (s.advance p).tempValid = s.tempValid := rfl
@[simp] theorem State.advance_lastTemp (p : SeqPos) : (s.advance p).lastTemp = s.lastTemp := rfl
@[simp] theorem State.advance_seq (p : SeqPos) : (s.advance p).seq = p := rfl
@[simp] theorem State.advance_cycleNow (p : SeqPos) : (s.advance p).cycleNow = s.cycleNow := rfl
@[simp] theorem State.advance_faultCause (p : SeqPos) : (s.advance p).faultCause = s.faultCause := rfl
@[simp] theorem State.advance_hist (p : SeqPos) : (s.advance p).hist = s.hist := rfl
@[simp] theorem State.advance_inputs (p : SeqPos) : (s.advance p).inputs = s.inputs := rfl
@[simp] theorem State.advance_held (p : SeqPos) : (s.advance p).held = s.held := rfl
@[simp] theorem State.advance_answer (p : SeqPos) : (s.advance p).answer = none := rfl
@[simp] theorem State.advance_resp (p : SeqPos) : (s.advance p).resp = s.resp := rfl

/-! resetBlock -/

@[simp] theorem State.resetBlock_params : (s.resetBlock).params = s.params := rfl
@[simp] theorem State.resetBlock_banks : (s.resetBlock).banks = s.banks.map fun b => Bank.atReset b.conf := rfl
@[simp] theorem State.resetBlock_loopState : (s.resetBlock).loopState = .init := rfl
@[simp] theorem State.resetBlock_tempOk : (s.resetBlock).tempOk = false := rfl
@[simp] theorem State.resetBlock_tempValid : (s.resetBlock).tempValid = false := rfl
@[simp] theorem State.resetBlock_lastTemp : (s.resetBlock).lastTemp = 0 := rfl
@[simp] theorem State.resetBlock_seq : (s.resetBlock).seq = .idle := rfl
@[simp] theorem State.resetBlock_cycleNow : (s.resetBlock).cycleNow = 0 := rfl
@[simp] theorem State.resetBlock_faultCause : (s.resetBlock).faultCause = 0 := rfl
@[simp] theorem State.resetBlock_hist : (s.resetBlock).hist = s.hist := rfl
@[simp] theorem State.resetBlock_inputs : (s.resetBlock).inputs = s.inputs := rfl
@[simp] theorem State.resetBlock_held : (s.resetBlock).held = [] := rfl
@[simp] theorem State.resetBlock_answer : (s.resetBlock).answer = none := rfl
@[simp] theorem State.resetBlock_resp : (s.resetBlock).resp = none := rfl

/-! consume -/

@[simp] theorem State.consume_params (rest : List Input) : (s.consume rest).params = s.params := rfl
@[simp] theorem State.consume_banks (rest : List Input) : (s.consume rest).banks = s.banks := rfl
@[simp] theorem State.consume_loopState (rest : List Input) : (s.consume rest).loopState = s.loopState := rfl
@[simp] theorem State.consume_tempOk (rest : List Input) : (s.consume rest).tempOk = s.tempOk := rfl
@[simp] theorem State.consume_tempValid (rest : List Input) : (s.consume rest).tempValid = s.tempValid := rfl
@[simp] theorem State.consume_lastTemp (rest : List Input) : (s.consume rest).lastTemp = s.lastTemp := rfl
@[simp] theorem State.consume_seq (rest : List Input) : (s.consume rest).seq = s.seq := rfl
@[simp] theorem State.consume_cycleNow (rest : List Input) : (s.consume rest).cycleNow = s.cycleNow := rfl
@[simp] theorem State.consume_faultCause (rest : List Input) : (s.consume rest).faultCause = s.faultCause := rfl
@[simp] theorem State.consume_hist (rest : List Input) : (s.consume rest).hist = s.hist := rfl
@[simp] theorem State.consume_inputs (rest : List Input) : (s.consume rest).inputs = rest := rfl
@[simp] theorem State.consume_held (rest : List Input) : (s.consume rest).held = s.held := rfl
@[simp] theorem State.consume_answer (rest : List Input) : (s.consume rest).answer = s.answer := rfl
@[simp] theorem State.consume_resp (rest : List Input) : (s.consume rest).resp = none := rfl

/-! keepHeld -/

@[simp] theorem State.keepHeld_params (later : List Instr) : (s.keepHeld later).params = s.params := rfl
@[simp] theorem State.keepHeld_banks (later : List Instr) : (s.keepHeld later).banks = s.banks := rfl
@[simp] theorem State.keepHeld_loopState (later : List Instr) : (s.keepHeld later).loopState = s.loopState := rfl
@[simp] theorem State.keepHeld_tempOk (later : List Instr) : (s.keepHeld later).tempOk = s.tempOk := rfl
@[simp] theorem State.keepHeld_tempValid (later : List Instr) : (s.keepHeld later).tempValid = s.tempValid := rfl
@[simp] theorem State.keepHeld_lastTemp (later : List Instr) : (s.keepHeld later).lastTemp = s.lastTemp := rfl
@[simp] theorem State.keepHeld_seq (later : List Instr) : (s.keepHeld later).seq = s.seq := rfl
@[simp] theorem State.keepHeld_cycleNow (later : List Instr) : (s.keepHeld later).cycleNow = s.cycleNow := rfl
@[simp] theorem State.keepHeld_faultCause (later : List Instr) : (s.keepHeld later).faultCause = s.faultCause := rfl
@[simp] theorem State.keepHeld_hist (later : List Instr) : (s.keepHeld later).hist = s.hist := rfl
@[simp] theorem State.keepHeld_inputs (later : List Instr) : (s.keepHeld later).inputs = s.inputs := rfl
@[simp] theorem State.keepHeld_held (later : List Instr) : (s.keepHeld later).held = later := rfl
@[simp] theorem State.keepHeld_answer (later : List Instr) : (s.keepHeld later).answer = s.answer := rfl
@[simp] theorem State.keepHeld_resp (later : List Instr) : (s.keepHeld later).resp = s.resp := rfl

end Sys2Proof.Machine
end

