-- ==== Sys2Proof/Laws/Ops.lean ====
section
/-! SUPPORT. One lemma per shared operation that says everything it can do: reaching a bank, the checks around a
command's own rule, and what a well-formed configuration gives. -/

namespace Sys2Proof.Machine

/-! The configuration. -/

theorem State.configOk_iff (s : State) :
    s.configOk = true ↔
      s.params.wf = true ∧ 1 ≤ s.nChannels ∧ s.nChannels ≤ 256 ∧ ∀ b ∈ s.banks, b.conf.wf = true := by
  simp [State.configOk, State.config, Config.wf, State.nChannels, and_assoc]

/-- The configuration alone decides whether it is well formed. -/
theorem State.configOk_of_config {s t : State} (h : t.config = s.config) : t.configOk = s.configOk := by
  simp [State.configOk, h]

theorem State.nChannels_of_config {s t : State} (h : t.config = s.config) : t.nChannels = s.nChannels := by
  have := congrArg (fun k => k.chans.length) h
  simpa [State.config, State.nChannels] using this

theorem Params.wf_bounds {p : Params} (h : p.wf = true) :
    1 ≤ p.ppr.toNat ∧ 1 ≤ p.msPerMin.toNat ∧ p.stallTimeoutMs.toNat ≤ 2 ^ 31 - 1 := by
  simpa [Params.wf, and_assoc] using h

theorem ChanConfig.wf_bounds {k : ChanConfig} (h : k.wf = true) :
    1 ≤ k.rpmMax.toNat ∧ k.rpmMin.toNat ≤ k.rpmMax.toNat ∧ 1 ≤ k.fullScaleMv.toNat := by
  simpa [ChanConfig.wf, and_assoc] using h

/-! Banks. -/

theorem State.mem_of_bank? {s : State} {c : Chan} {b : Bank} (h : s.bank? c = some b) : b ∈ s.banks :=
  List.mem_of_getElem? h

theorem State.lt_of_bank? {s : State} {c : Chan} {b : Bank} (h : s.bank? c = some b) : c.toNat < s.nChannels := by
  obtain ⟨hlt, -⟩ := List.getElem?_eq_some_iff.1 h
  exact hlt

/-- A channel index below N_CHANNELS names a bank. -/
theorem State.bank?_of_lt {s : State} {c : Chan} (h : c.toNat < s.nChannels) : ∃ b, s.bank? c = some b :=
  ⟨s.banks[c.toNat]'h, List.getElem?_eq_getElem h⟩

@[simp] theorem State.nChannels_setBank (s : State) (c : Chan) (b : Bank) :
    (s.setBank c b).nChannels = s.nChannels := by
  simp [State.nChannels]

/-- Writing a bank as it is changes nothing. -/
theorem State.setBank_self {s : State} {c : Chan} {b : Bank} (h : s.bank? c = some b) : s.setBank c b = s := by
  obtain ⟨hlt, he⟩ := List.getElem?_eq_some_iff.1 h
  have : s.banks.set c.toNat b = s.banks := by rw [← he, List.set_getElem_self]
  simp [State.setBank, this]

/-- Writing a bank that keeps its configuration keeps the block's. -/
theorem State.config_setBank {s : State} {c : Chan} {b b' : Bank} (h : s.bank? c = some b)
    (hc : b'.conf = b.conf) : (s.setBank c b').config = s.config := by
  have hl : s.banks[c.toNat]? = some b := h
  obtain ⟨hlt, he⟩ := List.getElem?_eq_some_iff.1 hl
  have hb : b.conf = (s.banks.map (·.conf))[c.toNat]'(by simpa using hlt) := by simp [he]
  simp only [State.config, State.setBank_params, State.setBank_banks, List.map_set, hc, hb, List.set_getElem_self]

/-- What `withBank` can do: run on the bank, or fault. -/
theorem withBank_some {c : Chan} {s : State} {b : Bank} (h : s.bank? c = some b) (f : Bank → Result) :
    withBank c s f = f b := by
  simp [withBank, h]

theorem withBank_next {c : Chan} {s t : State} {f : Bank → Result} (h : withBank c s f = .next t) :
    ∃ b, s.bank? c = some b ∧ f b = .next t := by
  unfold withBank at h
  split at h
  · exact ⟨_, ‹_›, h⟩
  · cases h

/-! The checks around a command's own rule. -/

section
variable {i : Instr} {run : State → Result} {s t : State}

/-- A legal, well-formed command that is not held runs its own rule. -/
theorem execute_run (hc : s.configOk = true) (hw : i.wf s.nChannels = true) (hl : legalIn i s.loopState = true)
    (hh : holdable i = false ∨ s.seq = .idle) : execute i run s = run s := by
  have hf := (operandFault_eq_none_iff s.nChannels i).2 hw
  rcases hh with hh | hh <;> simp [execute, hc, hf, hl, hh]

/-- A legal, well-formed command that a running cycle holds stays presented. -/
theorem execute_hold (hc : s.configOk = true) (hw : i.wf s.nChannels = true) (hl : legalIn i s.loopState = true)
    (hh : holdable i = true) (hs : s.seq ≠ .idle) : execute i run s = .next (s.hold i) := by
  have hf := (operandFault_eq_none_iff s.nChannels i).2 hw
  simp [execute, hc, hf, hl, hh, hs]

theorem execute_operandFault {k : Cause} (hc : s.configOk = true) (hf : operandFault s.nChannels i = some k) :
    execute i run s = .next (s.raise k (encode i)) := by
  simp [execute, hc, hf, raiseFault]

theorem execute_wrongState (hc : s.configOk = true) (hw : i.wf s.nChannels = true)
    (hl : legalIn i s.loopState = false) : execute i run s = .next (s.raise .wrongState (encode i)) := by
  have hf := (operandFault_eq_none_iff s.nChannels i).2 hw
  simp [execute, hc, hf, hl, raiseFault]

theorem execute_illFormedConfig (hc : s.configOk = false) : execute i run s = .refused .illFormedConfig := by
  simp [execute, hc]

/-- Everything `execute` can do when it answers a next state: a fault is recorded, the command is held, or its own
rule runs with every check passed. -/
theorem execute_next_cases (h : execute i run s = .next t) :
    s.configOk = true ∧
    ((∃ k, t = s.raise k (encode i)) ∨
     (i.wf s.nChannels = true ∧ legalIn i s.loopState = true ∧ holdable i = true ∧ s.seq ≠ .idle ∧ t = s.hold i) ∨
     (i.wf s.nChannels = true ∧ legalIn i s.loopState = true ∧ (holdable i = false ∨ s.seq = .idle) ∧
      run s = .next t)) := by
  unfold execute at h
  split at h
  · refine ⟨‹_›, ?_⟩
    split at h
    · exact .inl ⟨_, (Host.Outcome.next.inj h).symm⟩
    · have hw := (operandFault_eq_none_iff s.nChannels i).1 ‹_›
      split at h
      · split at h
        · rename_i hl hh
          simp only [Bool.and_eq_true, bne_iff_ne, ne_eq] at hh
          exact .inr (.inl ⟨hw, hl, hh.1, hh.2, (Host.Outcome.next.inj h).symm⟩)
        · rename_i hl hh
          refine .inr (.inr ⟨hw, hl, ?_, h⟩)
          cases hb : holdable i
          · exact .inl rfl
          · exact .inr (by simpa [hb] using hh)
      · exact .inl ⟨_, (Host.Outcome.next.inj h).symm⟩
  · cases h

end

theorem accept_next {v : Word} {s t : State} (h : accept v s = .next t) : t = s.respond v :=
  (Host.Outcome.next.inj h).symm

end Sys2Proof.Machine
end

