-- ==== Sys2Proof/Laws/Exec.lean ====
section
/-! SUPPORT. What a command can do: `exec_next_cases` says it once for every command, `exec_of_legal` says when a
command runs its own rule, and one lemma per operation says which fields it may change. -/

namespace Sys2Proof.Machine

/-- The own effect of command `i` from `s` to `t`, response included. -/
def Effect (i : Instr) (s t : State) : Prop :=
  match i with
  | .initCh c fl => ∃ b, s.bank? c = some b ∧ t = (initChOp c fl b s).respond 0
  | .initDone tv => t = (initDoneOp tv s).respond 0
  | .edge c now => ∃ b, s.bank? c = some b ∧ t = (edgeOp c now b s).respond 0
  | .period now => t = State.respond { s with cycleNow := now, seq := .stall 0 } 0
  | .stall c now => ∃ b, s.bank? c = some b ∧ t = (stallOp c now b s).respond 0
  | .map c v mv => ∃ b, s.bank? c = some b ∧ t = (mapOp c v mv b s).respond 0
  | .duty c rdy => ∃ b, s.bank? c = some b ∧ t = (dutyOp c rdy b s).respond b.dutyResponse
  | .temp tv x => t = (tempOp tv x s).respond 0
  | .log => t = (logOp s).respond 0
  | .rdreg c (.chan r) => ∃ b, s.bank? c = some b ∧ t = s.respond (b.readReg r)
  | .rdreg _ (.glob r) => t = s.respond (s.readGlob r)

/-- A command's own rule, after every check. -/
def ownRule (i : Instr) (s : State) : Result :=
  match i with
  | .initCh c fl => withBank c s fun b => accept 0 (initChOp c fl b s)
  | .initDone tv => accept 0 (initDoneOp tv s)
  | .edge c now => withBank c s fun b => accept 0 (edgeOp c now b s)
  | .period now => accept 0 { s with cycleNow := now, seq := .stall 0 }
  | .stall c now => withBank c s fun b => accept 0 (stallOp c now b s)
  | .map c v mv => withBank c s fun b => accept 0 (mapOp c v mv b s)
  | .duty c rdy => withBank c s fun b => accept b.dutyResponse (dutyOp c rdy b s)
  | .temp tv x => accept 0 (tempOp tv x s)
  | .log => accept 0 (logOp s)
  | .rdreg c (.chan r) => withBank c s fun b => accept (b.readReg r) s
  | .rdreg _ (.glob r) => accept (s.readGlob r) s

/-- Every arm of exec is its own rule within the shared checks. -/
theorem exec_eq_execute (i : Instr) (s : State) : exec i s = execute i (ownRule i) s := by
  rcases i with _ | _ | _ | _ | _ | _ | _ | _ | _ | ⟨_, _ | _⟩ <;> rfl

/-- A command's own rule answers a next state exactly by its effect. -/
theorem ownRule_next_iff {i : Instr} {s t : State} : ownRule i s = .next t ↔ Effect i s t := by
  have hb (c : Chan) (f : Bank → Word) (g : Bank → State) :
      withBank c s (fun b => accept (f b) (g b)) = .next t ↔ ∃ b, s.bank? c = some b ∧ t = (g b).respond (f b) := by
    constructor
    · intro h
      obtain ⟨b, hb, h⟩ := withBank_next h
      exact ⟨b, hb, accept_next h⟩
    · rintro ⟨b, hb, rfl⟩
      exact withBank_some hb _
  have ha (v : Word) (u : State) : accept v u = .next t ↔ t = u.respond v :=
    ⟨accept_next, fun h => h ▸ rfl⟩
  rcases i with _ | _ | _ | _ | _ | _ | _ | _ | _ | ⟨_, _ | _⟩ <;> first | exact hb _ _ _ | exact ha _ _

/-- Everything a command can do when it answers a next state: it is rejected, it is held, or it has its own effect. -/
theorem exec_next_cases {i : Instr} {s t : State} (h : exec i s = .next t) :
    s.configOk = true ∧
    ((∃ k, t = s.raise k (encode i)) ∨
     (i.wf s.nChannels = true ∧ legalIn i s.loopState = true ∧ holdable i = true ∧ s.seq ≠ .idle ∧ t = s.hold i) ∨
     (i.wf s.nChannels = true ∧ legalIn i s.loopState = true ∧ (holdable i = false ∨ s.seq = .idle) ∧
      Effect i s t)) := by
  rw [exec_eq_execute] at h
  obtain ⟨hc, hk | hh | ⟨hw, hl, hs, hr⟩⟩ := execute_next_cases h
  · exact ⟨hc, .inl hk⟩
  · exact ⟨hc, .inr (.inl hh)⟩
  · exact ⟨hc, .inr (.inr ⟨hw, hl, hs, ownRule_next_iff.1 hr⟩)⟩

/-- A legal, well-formed command that is not held has its own effect. -/
theorem exec_of_effect {i : Instr} {s t : State} (hc : s.configOk = true) (hw : i.wf s.nChannels = true)
    (hl : legalIn i s.loopState = true) (hs : holdable i = false ∨ s.seq = .idle) (he : Effect i s t) :
    exec i s = .next t := by
  rw [exec_eq_execute, execute_run hc hw hl hs, ownRule_next_iff.2 he]

/-- A well-formed command has an effect in every state: the bank it names is there. -/
theorem exists_effect {i : Instr} {s : State} (hw : i.wf s.nChannels = true) : ∃ t, Effect i s t := by
  rcases i with _ | _ | _ | _ | _ | _ | _ | _ | _ | ⟨_, _ | _⟩ <;>
    first
    | exact ⟨_, rfl⟩
    | (obtain ⟨b, hb⟩ := State.bank?_of_lt (of_decide_eq_true hw); exact ⟨_, b, hb, rfl⟩)

/-- On a well-formed configuration a command always answers a next state: its own effect, a fault or a hold. -/
theorem exec_next_of_configOk (i : Instr) {s : State} (hc : s.configOk = true) : ∃ t, exec i s = .next t := by
  rw [exec_eq_execute]
  cases hf : operandFault s.nChannels i with
  | some k => exact ⟨_, execute_operandFault hc hf⟩
  | none =>
    have hw := (operandFault_eq_none_iff _ _).1 hf
    cases hl : legalIn i s.loopState with
    | false => exact ⟨_, execute_wrongState hc hw hl⟩
    | true =>
      obtain ⟨t, ht⟩ := exists_effect hw
      cases hh : holdable i with
      | false => exact ⟨t, (execute_run hc hw hl (.inl hh)).trans (ownRule_next_iff.2 ht)⟩
      | true =>
        by_cases hs : s.seq = .idle
        · exact ⟨t, (execute_run hc hw hl (.inr hs)).trans (ownRule_next_iff.2 ht)⟩
        · exact ⟨_, execute_hold hc hw hl hh hs⟩

/-! Which fields an operation may change, one lemma per operation. -/

section
variable {s : State} {c : Chan} {b : Bank}

/-- EDGE writes bank `c` only, and there the reading, the edge time and the edge bit. -/
theorem edgeOp_eq (now : Word) (hb : s.bank? c = some b) :
    ∃ m l e, edgeOp c now b s = s.setBank c { b with measuredRpm := m, lastEdgeTime := l, edgeSeen := e } := by
  unfold edgeOp
  split
  · exact ⟨_, _, _, rfl⟩
  · refine ⟨b.measuredRpm, b.lastEdgeTime, b.edgeSeen, ?_⟩
    exact (State.setBank_self hb).symm

/-- STALL changes nothing, or zeroes the reading, sets the stall bit and reports. -/
theorem stallOp_eq (now : Word) :
    stallOp c now b s = s ∨
    stallOp c now b s = (s.setBank c { b with measuredRpm := 0, stallEvt := true }).emit [.stall c] := by
  unfold stallOp
  split
  · exact .inr rfl
  · exact .inl rfl

/-- MAP changes nothing, or warns, or writes the target. -/
theorem mapOp_eq (v : Bool) (mv : Word) :
    mapOp c v mv b s = s ∨ mapOp c v mv b s = s.emit [.adcWarn c] ∨
    mapOp c v mv b s = s.setBank c { b with targetRpm := targetOfSample b.conf mv } := by
  unfold mapOp
  split
  · split
    · exact .inr (.inr rfl)
    · exact .inr (.inl rfl)
  · exact .inl rfl

/-- DUTY at most emits one event. -/
theorem dutyOp_eq (rdy : Bool) :
    dutyOp c rdy b s = s ∨
    dutyOp c rdy b s = s.emit [if rdy then .pwmCommit c b.pulse else .pwmFail c b.pulse] := by
  unfold dutyOp
  split
  · exact .inr rfl
  · exact .inl rfl

/-- TEMP changes nothing, or warns, or stores the sample. -/
theorem tempOp_eq (tv : Bool) (x : Word) :
    tempOp tv x s = s ∨ tempOp tv x s = s.emit [.tempWarn] ∨
    tempOp tv x s = { s with tempValid := true, lastTemp := x } := by
  unfold tempOp
  split
  · split
    · exact .inr (.inr rfl)
    · exact .inr (.inl rfl)
  · exact .inl rfl

end

theorem logLines_length (v : Bool) (x : Word) (n : Nat) (bs : List Bank) :
    (logLines v x n bs).length = bs.length := by
  induction bs generalizing n with
  | nil => rfl
  | cons b bs ih => simp [logLines, ih]

theorem logLines_getElem? (v : Bool) (x : Word) (n k : Nat) (bs : List Bank) :
    (logLines v x n bs)[k]? = bs[k]?.map (logLine v x (n + k)) := by
  induction bs generalizing n k with
  | nil => simp [logLines]
  | cons b bs ih =>
    cases k with
    | zero => simp [logLines]
    | succ k => simp [logLines, ih, show n + 1 + k = n + (k + 1) by omega]

/-- A tick `d` after another, across the wrap or not, differs from it by `d` (spec/00_scope.md R21). -/
theorem tickDiff_add (l : Word) {d : Nat} (h : d < 2 ^ 31) : tickDiff (l + BitVec.ofNat 32 d) l = d := by
  unfold tickDiff
  rw [BitVec.add_comm, BitVec.add_sub_cancel, BitVec.toInt_eq_toNat_of_lt] <;> simp <;> omega

/-- A tick `d` behind another, `d` up to `2^31`, differs from it by `-d` (spec/00_scope.md R21). -/
theorem tickDiff_sub (l : Word) {d : Nat} (h : d ≤ 2 ^ 31) : tickDiff (l - BitVec.ofNat 32 d) l = -d := by
  unfold tickDiff
  have hs : l - BitVec.ofNat 32 d - l = - BitVec.ofNat 32 d := by bv_omega
  rw [hs, BitVec.toInt_eq_toNat_cond]
  simp only [BitVec.toNat_neg, BitVec.toNat_ofNat]
  split <;> omega

/-- The target MAP writes lies within the channel's bounds (spec/43_target.md R121, R122). -/
theorem targetOfSample_bounds {k : ChanConfig} (h : k.wf = true) (mv : Word) :
    k.rpmMin.toNat ≤ (targetOfSample k mv).toNat ∧ (targetOfSample k mv).toNat ≤ k.rpmMax.toNat := by
  have hb := ChanConfig.wf_bounds h
  have hlt : min (max (k.rpmMax.toNat * mv.toNat / k.fullScaleMv.toNat) k.rpmMin.toNat) k.rpmMax.toNat < 2 ^ 32 := by
    have := k.rpmMax.isLt
    omega
  rw [targetOfSample, BitVec.toNat_ofNat, Nat.mod_eq_of_lt hlt]
  omega

/-- A measured speed fits its field and is at most `MS_PER_MIN / PPR` (spec/41_tachometer.md R108). -/
theorem rpmOfInterval_toNat (p : Params) (d : Nat) :
    (rpmOfInterval p d).toNat = p.msPerMin.toNat / p.ppr.toNat / d := by
  have h1 : p.msPerMin.toNat / p.ppr.toNat / d ≤ p.msPerMin.toNat :=
    (Nat.div_le_self _ _).trans (Nat.div_le_self _ _)
  rw [rpmOfInterval, BitVec.toNat_ofNat, Nat.mod_eq_of_lt (h1.trans_lt p.msPerMin.isLt)]

/-- The pulse length fits its field when the target is within its bound (spec/44_duty.md R127). -/
theorem Bank.pulse_toNat {b : Bank} (h : b.targetRpm.toNat ≤ b.conf.rpmMax.toNat) :
    b.pulse.toNat = b.conf.pwmPeriod.toNat * b.targetRpm.toNat / b.conf.rpmMax.toNat ∧
    b.pulse.toNat ≤ b.conf.pwmPeriod.toNat := by
  have h1 : b.conf.pwmPeriod.toNat * b.targetRpm.toNat / b.conf.rpmMax.toNat ≤ b.conf.pwmPeriod.toNat :=
    Nat.div_le_of_le_mul (by rw [Nat.mul_comm b.conf.rpmMax.toNat]; exact Nat.mul_le_mul_left _ h)
  rw [Bank.pulse, BitVec.toNat_ofNat, Nat.mod_eq_of_lt (h1.trans_lt b.conf.pwmPeriod.isLt)]
  exact ⟨rfl, h1⟩

end Sys2Proof.Machine
end

