-- ==== Sys2Proof/Laws/Keeps.lean ====
section
/-! SUPPORT. One relation for what EDGE and every micro-operation keep, and one lemma per operation that it does. -/

namespace Sys2Proof.Machine

/-- The bits initialisation gives a bank (spec/10_state.md R37). -/
def Bank.oks (b : Bank) : Bool × Bool × Bool :=
  (b.tachoOk, b.adcOk, b.pwmOk)

/-- What EDGE and the micro-operations leave as it was, and the bank invariant of R38, which they keep
(spec/10_state.md R38, R48, R49). -/
structure Keeps (s t : State) : Prop where
  config : t.config = s.config
  banksOk : (∀ b ∈ s.banks, b.Ok s.params) → ∀ b ∈ t.banks, b.Ok t.params
  oks : t.banks.map Bank.oks = s.banks.map Bank.oks
  loopState : t.loopState = s.loopState
  tempOk : t.tempOk = s.tempOk
  faultCause : t.faultCause = s.faultCause
  seq : t.seq = s.seq
  held : t.held = s.held
  answer : t.answer = s.answer
  inputs : t.inputs = s.inputs
  hist : s.hist <+: t.hist

variable {s t u : State} {c : Chan} {b b' : Bank}

theorem Keeps.refl (s : State) : Keeps s s :=
  { config := rfl, banksOk := id, oks := rfl, loopState := rfl, tempOk := rfl, faultCause := rfl, seq := rfl,
    held := rfl, answer := rfl, inputs := rfl, hist := List.prefix_refl _ }

theorem Keeps.trans (h : Keeps s t) (k : Keeps t u) : Keeps s u :=
  { config := k.config.trans h.config
    banksOk := k.banksOk ∘ h.banksOk
    oks := k.oks.trans h.oks
    loopState := k.loopState.trans h.loopState
    tempOk := k.tempOk.trans h.tempOk
    faultCause := k.faultCause.trans h.faultCause
    seq := k.seq.trans h.seq
    held := k.held.trans h.held
    answer := k.answer.trans h.answer
    inputs := k.inputs.trans h.inputs
    hist := h.hist.trans k.hist }

theorem Keeps.emit (s : State) (es : List Event) : Keeps s (s.emit es) :=
  { Keeps.refl s with hist := List.prefix_append _ _ }

theorem Keeps.respond (k : Keeps s t) (v : Word) : Keeps s (t.respond v) :=
  { k with }

/-- Writing a bank that keeps its configuration, its ok bits and R38. -/
theorem Keeps.setBank (hb : s.bank? c = some b) (hc : b'.conf = b.conf) (ho : b'.oks = b.oks)
    (hk : b.Ok s.params → b'.Ok s.params) : Keeps s (s.setBank c b') := by
  refine { Keeps.refl s with config := State.config_setBank hb hc, banksOk := fun h a ha => ?_, oks := ?_ }
  · rcases List.mem_or_eq_of_mem_set ha with ha | rfl
    · exact h a ha
    · exact hk (h b (State.mem_of_bank? hb))
  · obtain ⟨hlt, he⟩ := List.getElem?_eq_some_iff.1 hb
    have hm : b.oks = (s.banks.map Bank.oks)[c.toNat]'(by simpa using hlt) := by simp [he]
    simp only [State.setBank_banks, List.map_set, ho, hm, List.set_getElem_self]

theorem edgeOp_keeps (now : Word) (hb : s.bank? c = some b) : Keeps s (edgeOp c now b s) := by
  unfold edgeOp
  split
  · refine Keeps.setBank hb rfl rfl fun ⟨_, hlo, hhi, hm⟩ => ⟨by simp [Bank.recordEdge], hlo, hhi, ?_⟩
    simp only [Bank.recordEdge]
    split
    · rw [rpmOfInterval_toNat]
      exact Nat.div_le_self _ _
    · exact hm
  · exact .refl _

theorem stallOp_keeps (now : Word) (hb : s.bank? c = some b) : Keeps s (stallOp c now b s) := by
  rcases stallOp_eq (s := s) (c := c) (b := b) now with h | h <;> rw [h]
  · exact .refl _
  · have hk : Keeps s (s.setBank c { b with measuredRpm := 0, stallEvt := true }) :=
      Keeps.setBank hb rfl rfl fun ⟨_, hlo, hhi, _⟩ => ⟨by simp, hlo, hhi, by simp⟩
    exact hk.trans (.emit _ _)

theorem mapOp_keeps (v : Bool) (mv : Word) (hc : s.configOk = true) (hb : s.bank? c = some b) :
    Keeps s (mapOp c v mv b s) := by
  rcases mapOp_eq (s := s) (c := c) (b := b) v mv with h | h | h <;> rw [h]
  · exact .refl _
  · exact .emit _ _
  · have hw := ((State.configOk_iff _).1 hc).2.2.2 b (State.mem_of_bank? hb)
    have ht := targetOfSample_bounds hw mv
    exact Keeps.setBank hb rfl rfl fun ⟨he, _, _, hm⟩ => ⟨he, ht.1, ht.2, hm⟩

theorem dutyOp_keeps (rdy : Bool) : Keeps s (dutyOp c rdy b s) := by
  rcases dutyOp_eq (s := s) (c := c) (b := b) rdy with h | h <;> rw [h]
  · exact .refl _
  · exact .emit _ _

theorem tempOp_keeps (tv : Bool) (x : Word) : Keeps s (tempOp tv x s) := by
  rcases tempOp_eq (s := s) tv x with h | h | h <;> rw [h]
  · exact .refl _
  · exact .emit _ _
  · exact { Keeps.refl s with }

theorem logOp_keeps : Keeps s (logOp s) := by
  refine { Keeps.emit s _ with config := ?_, banksOk := fun h a ha => ?_, oks := ?_ }
  · simp [State.config, logOp, Function.comp_def]
  · simp only [logOp, State.emit_banks, List.mem_map] at ha
    obtain ⟨b, hb, rfl⟩ := ha
    exact h b hb
  · simp [logOp, Function.comp_def, Bank.oks]

end Sys2Proof.Machine
end

