-- ==== Sys2Proof/Laws/PerInstr.lean ====
section
/-! SUPPORT. Statements about every command as syntax, one lemma per constructor of Instr. -/

namespace Sys2Proof.Laws.EncodingShape

/-- The word of a command has its opcode's number, RSV 0, and 0 in every field the opcode does not use
(spec/30_encoding.md R83, R89, R91). -/
def Statement (i : Instr) : Prop :=
  (Fields.ofWord (encode i)).op = i.opcode.bits ∧ (Fields.ofWord (encode i)).rsv = 0 ∧
    ∀ f : Field, i.opcode.uses f = false → (Fields.ofWord (encode i)).isZero f = true

theorem initCh (c : Chan) (fl : BitVec 3) : Statement (.initCh c fl) := by
  refine ⟨?_, ?_, fun f => ?_⟩ <;>
    [skip; skip; cases f] <;> simp [encode, Instr.fields, Instr.opcode, Opcode.uses, Fields.isZero]

theorem initDone (tv : Bool) : Statement (.initDone tv) := by
  refine ⟨?_, ?_, fun f => ?_⟩ <;>
    [skip; skip; cases f] <;> simp [encode, Instr.fields, Instr.opcode, Opcode.uses, Fields.isZero]

theorem edge (c : Chan) (now : Word) : Statement (.edge c now) := by
  refine ⟨?_, ?_, fun f => ?_⟩ <;>
    [skip; skip; cases f] <;> simp [encode, Instr.fields, Instr.opcode, Opcode.uses, Fields.isZero]

theorem period (now : Word) : Statement (.period now) := by
  refine ⟨?_, ?_, fun f => ?_⟩ <;>
    [skip; skip; cases f] <;> simp [encode, Instr.fields, Instr.opcode, Opcode.uses, Fields.isZero]

theorem stall (c : Chan) (now : Word) : Statement (.stall c now) := by
  refine ⟨?_, ?_, fun f => ?_⟩ <;>
    [skip; skip; cases f] <;> simp [encode, Instr.fields, Instr.opcode, Opcode.uses, Fields.isZero]

theorem map (c : Chan) (v : Bool) (mv : Word) : Statement (.map c v mv) := by
  refine ⟨?_, ?_, fun f => ?_⟩ <;>
    [skip; skip; cases f] <;> simp [encode, Instr.fields, Instr.opcode, Opcode.uses, Fields.isZero]

theorem duty (c : Chan) (rdy : Bool) : Statement (.duty c rdy) := by
  refine ⟨?_, ?_, fun f => ?_⟩ <;>
    [skip; skip; cases f] <;> simp [encode, Instr.fields, Instr.opcode, Opcode.uses, Fields.isZero]

theorem temp (tv : Bool) (t : Word) : Statement (.temp tv t) := by
  refine ⟨?_, ?_, fun f => ?_⟩ <;>
    [skip; skip; cases f] <;> simp [encode, Instr.fields, Instr.opcode, Opcode.uses, Fields.isZero]

theorem log : Statement .log := by
  refine ⟨?_, ?_, fun f => ?_⟩ <;>
    [skip; skip; cases f] <;> simp [encode, Instr.fields, Instr.opcode, Opcode.uses, Fields.isZero]

theorem rdreg (c : Chan) (r : Reg) : Statement (.rdreg c r) := by
  refine ⟨?_, ?_, fun f => ?_⟩ <;>
    [skip; skip; cases f] <;> simp [encode, Instr.fields, Instr.opcode, Opcode.uses, Fields.isZero]

end Sys2Proof.Laws.EncodingShape
end

