-- ==== Sys2Proof/Laws/Steps.lean ====
section
/-! SUPPORT. What a step can do, said once: the sequencer's step, the main agent's turn and the machine's step. -/

namespace Sys2Proof.Machine

variable {s t : State}

/-- Everything the sequencer can do (spec/45_control_loop.md R139): nothing, or one row of the table, its operation run
with the draw or skipped. -/
theorem sequencerStep_next_cases (h : sequencerStep s = .next t) :
    t = s ∨
    (∃ c b, s.seq = .stall c ∧ s.bank? c = some b ∧ t = (stallOp c s.cycleNow b s).advance (.map c)) ∨
    (∃ c b, s.seq = .map c ∧ s.bank? c = some b ∧
      ((∃ v mv, b.adcOk = true ∧ s.answer = some (.adc v mv) ∧ t = (mapOp c v mv b s).advance (.duty c)) ∨
       (b.adcOk = false ∧ t = s.advance (.duty c)))) ∨
    (∃ c b, s.seq = .duty c ∧ s.bank? c = some b ∧
      ((∃ rdy, b.pwmOk = true ∧ s.answer = some (.pwm rdy) ∧ t = (dutyOp c rdy b s).advance (s.afterDuty c)) ∨
       (b.pwmOk = false ∧ t = s.advance (s.afterDuty c)))) ∨
    (s.seq = .temp ∧
      ((∃ tv x, s.tempOk = true ∧ s.answer = some (.temp tv x) ∧ t = (tempOp tv x s).advance .log) ∨
       (s.tempOk = false ∧ t = s.advance .log))) ∨
    (s.seq = .log ∧ t = (logOp s).advance .idle) := by
  unfold sequencerStep at h
  split at h
  · exact .inl (Host.Outcome.next.inj h).symm
  · obtain ⟨b, hb, h⟩ := withBank_next h
    exact .inr (.inl ⟨_, b, ‹_›, hb, (Host.Outcome.next.inj h).symm⟩)
  · obtain ⟨b, hb, h⟩ := withBank_next h
    split at h
    · split at h
      · exact .inr (.inr (.inl ⟨_, b, ‹_›, hb, .inl ⟨_, _, ‹_›, ‹_›, (Host.Outcome.next.inj h).symm⟩⟩))
      · exact .inl (Host.Outcome.next.inj h).symm
    · exact .inr (.inr (.inl ⟨_, b, ‹_›, hb, .inr ⟨Bool.eq_false_iff.2 ‹_›, (Host.Outcome.next.inj h).symm⟩⟩))
  · obtain ⟨b, hb, h⟩ := withBank_next h
    split at h
    · split at h
      · exact .inr (.inr (.inr (.inl ⟨_, b, ‹_›, hb, .inl ⟨_, ‹_›, ‹_›, (Host.Outcome.next.inj h).symm⟩⟩)))
      · exact .inl (Host.Outcome.next.inj h).symm
    · exact .inr (.inr (.inr (.inl ⟨_, b, ‹_›, hb, .inr ⟨Bool.eq_false_iff.2 ‹_›, (Host.Outcome.next.inj h).symm⟩⟩)))
  · split at h
    · split at h
      · exact .inr (.inr (.inr (.inr (.inl ⟨‹_›, .inl ⟨_, _, ‹_›, ‹_›, (Host.Outcome.next.inj h).symm⟩⟩))))
      · exact .inl (Host.Outcome.next.inj h).symm
    · exact .inr (.inr (.inr (.inr (.inl ⟨‹_›, .inr ⟨Bool.eq_false_iff.2 ‹_›, (Host.Outcome.next.inj h).symm⟩⟩))))
  · exact .inr (.inr (.inr (.inr (.inr ⟨‹_›, (Host.Outcome.next.inj h).symm⟩))))

/-- Everything the main agent's turn can do. -/
theorem mainTurn_next_cases (h : mainTurn s = .next t) :
    (s.seq = .idle ∧ s.held = [] ∧ t = s) ∨
    (∃ i later, s.seq = .idle ∧ s.held = i :: later ∧ exec i (s.keepHeld later) = .next t) ∨
    (s.seq ≠ .idle ∧ sequencerStep s = .next t) := by
  unfold mainTurn at h
  split at h
  · exact .inl ⟨‹_›, ‹_›, (Host.Outcome.next.inj h).symm⟩
  · exact .inr (.inl ⟨_, _, ‹_›, ‹_›, h⟩)
  · refine .inr (.inr ⟨fun hs => ?_, h⟩)
    cases hh : s.held
    · exact absurd hh (by simp_all)
    · simp_all

/-- A presented word is executed: its command, or its fault. -/
theorem executeWord_next_cases {w : CmdWord} (h : executeWord w s = .next t) :
    (∃ i, decode s.nChannels w = .cmd i ∧ exec i s = .next t) ∨
    (∃ k, decode s.nChannels w = .fault k ∧ t = s.raise k w) := by
  unfold executeWord at h
  split at h
  · exact .inl ⟨_, ‹_›, h⟩
  · exact .inr ⟨_, ‹_›, (Host.Outcome.next.inj h).symm⟩

/-- Everything a step can do: a turn of the main agent, an answer, a reset, or a presented word. -/
theorem step_next_cases (h : step s = .next t) :
    s.configOk = true ∧
    ((∃ rest, s.inputs.head? ≠ some .reset ∧ (∀ r, s.inputs.head? ≠ some (.answer r)) ∧
        mainTurn (s.consume rest) = .next t) ∨
     (∃ r rest, s.inputs = .answer r :: rest ∧ t = (s.consume rest).deliver r) ∨
     (∃ rest, s.inputs = .reset :: rest ∧ t = (s.consume rest).resetBlock) ∨
     (∃ a w rest, s.inputs = .command a w :: rest ∧ s.heldFirst a = false ∧
        executeWord w (s.consume rest) = .next t)) := by
  unfold step nextStep at h
  split at h
  · refine ⟨‹_›, ?_⟩
    split at h
    · rename_i hi
      exact .inl ⟨[], by simp [hi], by simp [hi], h⟩
    · rename_i rest hi
      exact .inl ⟨rest, by simp [hi], by simp [hi], h⟩
    · exact .inr (.inl ⟨_, _, ‹_›, (Host.Outcome.next.inj h).symm⟩)
    · exact .inr (.inr (.inl ⟨_, ‹_›, (Host.Outcome.next.inj h).symm⟩))
    · rename_i a w rest hi
      split at h
      · exact .inl ⟨s.inputs, by simp [hi], by simp [hi], h⟩
      · rename_i hh
        exact .inr (.inr (.inr ⟨a, w, rest, hi, by simpa using hh, h⟩))
  · cases h

/-- What an answer does: it is stored, or nothing happens. -/
theorem State.deliver_cases (s : State) (r : Answer) :
    (s.deliver r = { s with answer := some r } ∧ s.requests r = true ∧ s.answer = none) ∨ s.deliver r = s := by
  unfold State.deliver
  split
  · rename_i h
    simp only [Bool.and_eq_true, Option.isNone_iff_eq_none] at h
    exact .inl ⟨rfl, h.1, h.2⟩
  · exact .inr rfl

end Sys2Proof.Machine
end

