-- ==== Sys2Proof/Tests/Slice0.lean ====
section
/-! SUPPORT. The model's own tests: the well-formedness smoke test, decode tests on words written out from
spec/30_encoding.md R82 and R97, single-step tests with the expected results of spec/95_test_vectors.md, and for every
obligation with hypotheses a witness that meets them. -/

namespace Sys2Proof.Tests

open Sys2Proof.Machine

/-! Helpers: small states, and the next state of a result. -/

def nextOf : Result → State
  | .next t => t
  | .fault _ => State.reset
  | .refused _ => State.reset

/-- Channel 0 of most tests: initialised, turning at 3000, its last edge at tick 5000. -/
def bank0 : Bank :=
  { Bank.atReset (ChanConfig.default 0) with
    measuredRpm := 3000, lastEdgeTime := 5000, edgeSeen := true, tachoOk := true, adcOk := true, pwmOk := true }

/-- Channel 1: nothing initialised. -/
def bank1 : Bank :=
  Bank.atReset (ChanConfig.default 1)

/-- RUNNING and IDLE, with `b` as channel 0. -/
def runningWith (b : Bank) : State :=
  { State.reset with banks := [b, bank1], loopState := .running, tempOk := true }

/-- RUNNING and IDLE. -/
def running : State :=
  runningWith bank0

/-- A cycle at position `p`. -/
def cycleAt (p : SeqPos) : State :=
  { running with seq := p }

/-! Well-formedness: an ill-formed term for each check, refused. -/

theorem test_wf_channel_range :
    ([Instr.initCh 2 7, .edge 2 5, .stall 2 5, .map 2 true 5, .duty 2 true, .rdreg 2 (.chan .cstatus)].map
      (Instr.wf 2)) = [false, false, false, false, false, false] := by decide

theorem test_wf_global_register_channel : Instr.wf 2 (.rdreg 1 (.glob .ppr)) = false := by decide

theorem test_wf_accepts :
    ([Instr.initCh 1 7, .initDone true, .edge 1 5, .period 5, .stall 1 5, .map 1 true 5, .duty 1 true, .temp true 5,
      .log, .rdreg 1 (.chan .cstatus), .rdreg 0 (.glob .ppr)].all (Instr.wf 2)) = true := by decide

theorem test_config_default_wf : Config.default.wf = true := by decide

theorem test_config_no_channel : Config.wf { Config.default with chans := [] } = false := by decide

theorem test_config_too_many_channels :
    Config.wf { Config.default with chans := List.replicate 257 (ChanConfig.default 0) } = false := by
  simp only [Config.wf, List.length_replicate]
  decide

theorem test_params_checks :
    Params.wf { Params.default with ppr := 0 } = false ∧ Params.wf { Params.default with msPerMin := 0 } = false ∧
    Params.wf { Params.default with stallTimeoutMs := 0x80000000 } = false ∧
    Params.wf { Params.default with stallTimeoutMs := 0x7FFFFFFF } = true := by decide

theorem test_chan_config_checks :
    ChanConfig.wf { ChanConfig.default 0 with rpmMax := 0 } = false ∧
    ChanConfig.wf { ChanConfig.default 0 with rpmMin := 4001 } = false ∧
    ChanConfig.wf { ChanConfig.default 0 with fullScaleMv := 0 } = false := by decide

/-! Decoding: one word per constructor, written out from the fields of R82 (R97 gives the same words). -/

theorem test_decode_init_ch : decode 2 0x00000000000001A1 = .cmd (.initCh 1 0b101) := by decide
theorem test_decode_init_done : decode 2 0x0000000000000012 = .cmd (.initDone true) := by decide
theorem test_decode_edge : decode 2 0x0000001000000103 = .cmd (.edge 1 0x10) := by decide
theorem test_decode_period : decode 2 0x000007D000000004 = .cmd (.period 2000) := by decide
theorem test_decode_stall : decode 2 0x0000177100000005 = .cmd (.stall 0 6001) := by decide
theorem test_decode_map : decode 2 0x000005DC00000016 = .cmd (.map 0 true 1500) := by decide
theorem test_decode_duty : decode 2 0x0000000000000117 = .cmd (.duty 1 true) := by decide
theorem test_decode_temp : decode 2 0x0000001900000018 = .cmd (.temp true 25) := by decide
theorem test_decode_log : decode 2 0x0000000000000009 = .cmd .log := by decide
theorem test_decode_rdreg : decode 2 0x000000000003010A = .cmd (.rdreg 1 (.chan .cstatus)) := by decide

/-- spec/95 T-F1 to T-F8, T-F11, T-F12, T-R10: the first failing check gives the cause. -/
theorem test_decode_fault_priority :
    [0x0000000000000000, 0x000000000000000F, 0x000000000100000B, 0x0000000001000203, 0x0000000100000009,
     0x00000000000000F1, 0x0000000100000007, 0x0000000000000205, 0x000000000010020A, 0x000000000008050A,
     0x000000000000020A].map (decode 2) =
    [.fault .illegalOpcode, .fault .illegalOpcode, .fault .illegalOpcode, .fault .reservedField, .fault .reservedField,
     .fault .reservedField, .fault .reservedField, .fault .badChannel, .fault .badRegister, .fault .badRegister,
     .fault .badChannel] := by decide

/-- R96 on the worked encodings of R97. -/
theorem test_encode_worked :
    [Instr.initCh 0 7, .initDone true, .edge 0 1000, .period 2000, .stall 0 6001, .map 0 true 1500, .map 1 false 0,
     .duty 0 true, .temp true 25, .log, .rdreg 0 (.glob .gstatus)].map encode =
    [0xE1, 0x12, 0x000003E800000003, 0x000007D000000004, 0x0000177100000005, 0x000005DC00000016, 0x106, 0x17,
     0x0000001900000018, 0x9, 0x0010000A] := by decide

/-- R74: byte k holds bits [8k+7:8k]. -/
theorem test_bytes_little_endian :
    wordBytes 0x0000177100000005 = [0x05, 0x00, 0x00, 0x00, 0x71, 0x17, 0x00, 0x00] := by decide

theorem test_decode_table_word : decodeTableWord 64 0xE1 = some (.initCh 0 7) := by decide

/-! Assembly (R97 to R101). -/

theorem test_assemble_commands :
    ["INIT_CH 1, 1, 0, 1", "EDGE 1, 0x10", "RDREG 0, 0x08", "RD 1, CSTATUS", "DUTY 0, 2", "LOG 1"].map (assemble 2) =
    [some [0x1A1], some [0x0000001000000103], some [0x8000A], some [0x3010A], none, none] := by decide

/-- R98 and R101: a global register's name, with and without its channel. -/
theorem test_assemble_global_names :
    ["RDREG 0, GSTATUS", "RD 0, GSTATUS", "RD GSTATUS", "RDREG 1, GSTATUS", "RD 1, GSTATUS", "RD CSTATUS"].map
      (assemble 2) =
    [some [0x0010000A], some [0x0010000A], some [0x0010000A], some [0x0010010A], some [0x0010010A], none] := by decide

theorem test_assemble_cycle :
    assemble 2 "CYCLE 5, (1, 1500, 1), (0, 0, 0), (1, 25)" =
      some ((cycle 5 [⟨true, 1500, true⟩, ⟨false, 0, false⟩] true 25).map encode) := by decide

/-! Single steps, expected results from spec/95_test_vectors.md. -/

/-- T-O2. -/
theorem test_init_ch :
    (nextOf (exec (.initCh 1 0b101) State.reset)).banks.map Bank.cstatus = [0, 0b1010] ∧
    (nextOf (exec (.initCh 1 0b101) State.reset)).hist = [.initFail 1 0b010] := by decide

/-- T-F14: WRONG_STATE in RUNNING. -/
theorem test_init_ch_wrong_state : (nextOf (exec (.initCh 0 7) running)).hist = [.fault 5 0xE1] := by decide

/-- T-O5. -/
theorem test_init_done :
    (nextOf (exec (.initDone false) State.reset)).loopState = .running ∧
    (nextOf (exec (.initDone false) State.reset)).hist = [.tempInitFail] := by decide

/-- T-E8: 20 ticks across the wrap. -/
theorem test_edge_across_wrap :
    ((nextOf (exec (.edge 0 0xA) (runningWith { bank0 with lastEdgeTime := 0xFFFFFFF6 }))).banks.map
      (·.measuredRpm)) = [1500, 0] := by decide

/-- T-E9: a difference of exactly `2^31` is rejected. -/
theorem test_edge_half_range_rejected :
    ((nextOf (exec (.edge 0 0x80000000) (runningWith { bank0 with lastEdgeTime := 0, measuredRpm := 777 }))).banks.map
      fun b => (b.measuredRpm, b.lastEdgeTime)) = [(777, 0x80000000), (0, 0)] := by decide

/-- T-O7. -/
theorem test_period :
    (nextOf (exec (.period 2000) running)).seq = .stall 0 ∧
    (nextOf (exec (.period 2000) running)).cycleNow = 2000 := by decide

/-- T-O8: held. -/
theorem test_period_held : (nextOf (exec (.period 3000) (cycleAt (.map 1)))).held = [.period 3000] := by decide

/-- T-S1 and T-S2: the comparison is strict. -/
theorem test_stall_threshold :
    (nextOf (exec (.stall 0 6000) running)).hist = [] ∧
    (nextOf (exec (.stall 0 6001) running)).hist = [.stall 0] := by decide

/-- T-S4: an edge newer than the tick is no stall. -/
theorem test_stall_newer_edge :
    ((nextOf (exec (.stall 0 4997) running)).banks.map (·.measuredRpm)) = [3000, 0] := by decide

/-- T-M9: the product is exact and the result is clamped. -/
theorem test_map_no_overflow :
    ((nextOf (exec (.map 0 true 0xFFFFFFFF) running)).banks.map (·.targetRpm)) = [4000, 0] := by decide

/-- T-M7, and T-M13 with `RPM_MIN = 1000`. -/
theorem test_map_truncates :
    targetOfSample (ChanConfig.default 0) 749 = 998 ∧
    targetOfSample { ChanConfig.default 0 with rpmMin := 1000 } 1500 = 2000 := by decide

/-- T-D7. -/
theorem test_duty_truncates :
    (nextOf (exec (.duty 0 true) (runningWith { bank0 with targetRpm := 3999 }))).hist = [.pwmCommit 0 999] := by decide

/-- T-D11. -/
theorem test_duty_not_ready :
    (nextOf (exec (.duty 0 false) (runningWith { bank0 with targetRpm := 2000 }))).hist = [.pwmFail 0 500] ∧
    (nextOf (exec (.duty 0 false) (runningWith { bank0 with targetRpm := 2000 }))).resp = some 500 := by decide

/-- T-O10. -/
theorem test_temp : (nextOf (exec (.temp true 25) running)).lastTemp = 25 := by decide

/-- T-O11. -/
theorem test_temp_failed :
    (nextOf (exec (.temp false 99) { running with lastTemp := 25, tempValid := true })).lastTemp = 25 ∧
    (nextOf (exec (.temp false 99) { running with lastTemp := 25, tempValid := true })).hist = [.tempWarn] := by decide

/-- T-O13, with channel 1 as it is at reset. -/
theorem test_log :
    (nextOf (exec .log { runningWith { bank0 with measuredRpm := 0, targetRpm := 2000, stallEvt := true } with
      tempValid := true, lastTemp := 25 })).hist =
      [.log 0 0 2000 true true 25, .log 1 0 0 false true 25] := by decide

/-- T-R6 and T-R7. -/
theorem test_rdreg_status :
    (nextOf (exec (.rdreg 0 (.chan .cstatus)) (runningWith { bank0 with adcOk := false }))).resp = some 0x0B ∧
    (nextOf (exec (.rdreg 0 (.glob .gstatus)) { running with tempValid := true })).resp = some 0x07 := by decide

/-- T-R4 and T-R5. -/
theorem test_rdreg_constants :
    ([GlobReg.nchan, .stallTimeout, .ppr].map fun r => (nextOf (exec (.rdreg 0 (.glob r)) State.reset)).resp) =
      [some 2, some 1000, some 2] := by decide

/-- T-F15: the first cause is kept, the event carries the new one; the all-zero word faults (R90). -/
theorem test_fault_sticky :
    (nextOf (step ({ State.reset with faultCause := 5 }.withFetchWord 64 0))).faultCause = 5 ∧
    (nextOf (step ({ State.reset with faultCause := 5 }.withFetchWord 64 0))).hist = [.fault 1 0] := by decide

/-- T-O16: no draw, the operation is skipped. -/
theorem test_sequencer_skips :
    (nextOf (step { runningWith { bank0 with adcOk := false } with seq := .map 0 })).seq = .duty 0 := by decide

/-- The last channel's duty is followed by the temperature (R139). -/
theorem test_sequencer_last_channel : (nextOf (step (cycleAt (.duty 1)))).seq = .temp := by decide

/-! Witnesses: for each obligation with hypotheses, a state and operands that meet them, at the edge of a range where
there is one. -/

/-- `s`, where agent `a` presents `w` next. -/
def presenting (a : Agent) (w : CmdWord) (s : State) : State :=
  { s with inputs := [.command a w] }

/-- `s`, where `r` comes next. -/
def facing (r : Input) (s : State) : State :=
  { s with inputs := [r] }

/-- Channel 0 as `bank0`, initialised and with no edge yet. -/
def fresh : Bank :=
  { bank0 with measuredRpm := 0, lastEdgeTime := 0, edgeSeen := false }

/-- A state with a fault behind it. -/
def faulted : State :=
  { running with faultCause := 3, hist := [.fault 3 0x205] }

theorem witness_DecodeOfEncode :
    Instr.wf 2 (.rdreg 1 (.chan .fullScaleMv)) = true ∧ Instr.wf 2 (.rdreg 0 (.glob .ppr)) = true ∧
    Instr.wf 256 (.map 255 true 0xFFFFFFFF) = true := by decide

theorem witness_EncodeOfDecode : decode 2 0xFFFFFFFF00000116 = .cmd (.map 1 true 0xFFFFFFFF) := by decide

theorem witness_ReservedOpcodeFaults :
    [(0x0 : CmdWord), 0xB, 0xF].all (fun w => w.toNat % 16 = 0 ∨ 0xB ≤ w.toNat % 16) = true := by decide

theorem witness_ReservedFieldFaults :
    [((0x11 : CmdWord), 0x1, 0xFFFFFFFFFFFF0010), (0x22, 0x2, 0xFFFFFFFFFFFFFFE0), (0x13, 0x3, 0x00000000FFFF00F0),
      (0x104, 0x4, 0x00000000FFFFFFF0), (0x10005, 0x5, 0x00000000FFFF00F0), (0x26, 0x6, 0x00000000FFFF00E0),
      (0x8000000000000007, 0x7, 0xFFFFFFFFFFFF00E0), (0x80000008, 0x8, 0x00000000FFFFFFE0),
      (0x100000009, 0x9, 0xFFFFFFFFFFFFFFF0), (0x100000A, 0xA, 0xFFFFFFFFFF0000F0)].all
      (fun x => x.1.toNat % 16 = x.2.1 ∧ x.1 &&& BitVec.ofNat 64 x.2.2 ≠ 0) = true := by decide

theorem witness_ReservedRegisterIsBadRegister :
    [(0x08 : BitVec 8), 0x0F, 0x16, 0xFF].all
      (fun rs => 0x08 ≤ rs.toNat ∧ rs.toNat ≤ 0x0F ∨ 0x16 ≤ rs.toNat) = true := by decide

theorem witness_OperandOutOfRangeFaults :
    running.configOk = true ∧ Instr.wf running.nChannels (.edge 2 5) = false ∧
    Instr.wf running.nChannels (.rdreg 255 (.chan .cstatus)) = false ∧
    Instr.wf running.nChannels (.rdreg 1 (.glob .ppr)) = false := by decide

theorem witness_UndecodableWordIsRecorded :
    let s := presenting .main 0x205 running
    s.configOk = true ∧ s.inputs = .command .main 0x205 :: [] ∧ s.heldFirst .main = false ∧
    decode s.nChannels 0x205 = .fault .badChannel := by decide

theorem witness_StepRunsDecodedCommand :
    let s := presenting .edge 0x0000001000000103 { running with held := [.log] }
    s.configOk = true ∧ s.inputs = .command .edge 0x0000001000000103 :: [] ∧ s.heldFirst .edge = false ∧
    decode s.nChannels 0x0000001000000103 = .cmd (.edge 1 0x10) := by decide

/-- One state per constraint of R15, but for the bound of 256 channels. -/
theorem witness_IllFormedConfigurationRefused :
    [{ running with banks := [] }, { running with params := { Params.default with ppr := 0 } },
      { running with params := { Params.default with msPerMin := 0 } },
      { running with params := { Params.default with stallTimeoutMs := 0x80000000 } },
      runningWith { bank0 with conf := { bank0.conf with rpmMax := 0 } },
      runningWith { bank0 with conf := { bank0.conf with rpmMin := 4001 } },
      runningWith { bank0 with conf := { bank0.conf with fullScaleMv := 0 } }].all (fun s =>
      ¬ (1 ≤ s.banks.length ∧ s.banks.length ≤ 256 ∧ 1 ≤ s.params.ppr.toNat ∧ 1 ≤ s.params.msPerMin.toNat ∧
       s.params.stallTimeoutMs.toNat ≤ 2 ^ 31 - 1 ∧
       ∀ b ∈ s.banks, 1 ≤ b.conf.rpmMax.toNat ∧ b.conf.rpmMin.toNat ≤ b.conf.rpmMax.toNat ∧
         1 ≤ b.conf.fullScaleMv.toNat)) = true := by decide

theorem witness_IllFormedConfigurationRefused_channels :
    ¬ (List.replicate 257 bank0).length ≤ 256 := by
  rw [List.length_replicate]
  decide

theorem witness_ResetAction :
    let s := facing .reset { faulted with held := [.log], seq := .map 0, answer := some (.adc true 5) }
    s.configOk = true ∧ s.inputs = .reset :: [] := by decide

theorem witness_InitCommandsLegalInInitOnly :
    running.configOk = true ∧ (1 : Chan).toNat < running.nChannels ∧ running.loopState = .running ∧
    State.reset.configOk = true ∧ (1 : Chan).toNat < State.reset.nChannels ∧ State.reset.loopState = .init := by decide

theorem witness_PeriodicCommandsLegalInRunningOnly :
    State.reset.configOk = true ∧ (1 : Chan).toNat < State.reset.nChannels ∧ State.reset.loopState = .init ∧
    running.configOk = true ∧ (1 : Chan).toNat < running.nChannels ∧ running.loopState = .running ∧
    Instr.wf running.nChannels (.edge 1 5) = true ∧ Instr.wf running.nChannels (.rdreg 1 (.chan .cstatus)) = true := by
  decide

theorem witness_CommandsHeldWhileCycleRuns :
    let s := cycleAt .log
    s.configOk = true ∧ (1 : Chan).toNat < s.nChannels ∧ s.loopState = .running ∧ s.seq ≠ .idle := by decide

theorem witness_OldestHeldCommandAcceptedAtIdle :
    let s := { running with held := [.period 3000, .log] }
    (s.configOk = true ∧ s.seq = .idle ∧ s.held = .period 3000 :: [.log] ∧ s.inputs = []) ∧
    (facing .turn s).inputs = .turn :: [] ∧ (presenting .main 0x9 s).inputs = .command .main 0x9 :: [] := by decide

/-- A command that is held, and one that responds. -/
theorem witness_EveryCommandRespondsOrIsHeld :
    exec (.period 3000) (cycleAt .temp) = .next (nextOf (exec (.period 3000) (cycleAt .temp))) ∧
    exec (.duty 0 true) running = .next (nextOf (exec (.duty 0 true) running)) := ⟨rfl, rfl⟩

theorem witness_InitChRecordsResults :
    State.reset.configOk = true ∧ State.reset.banks[(1 : Chan).toNat]? = some bank1 ∧
    State.reset.loopState = .init := by decide

theorem witness_InitDoneEntersRunning : State.reset.configOk = true ∧ State.reset.loopState = .init := by decide

theorem witness_InitAllInitialisesEveryChannel :
    State.reset.configOk = true ∧ State.reset.loopState = .init := by decide

theorem witness_EdgeWithoutTachoHasNoEffect :
    running.configOk = true ∧ running.banks[(1 : Chan).toNat]? = some bank1 ∧ bank1.tachoOk = false := by decide

theorem witness_FirstEdgeRecordsTimeOnly :
    (runningWith fresh).configOk = true ∧ (runningWith fresh).banks[(0 : Chan).toNat]? = some fresh ∧
    fresh.tachoOk = true ∧ fresh.edgeSeen = false := by decide

/-- The shortest interval, the longest, and one across the wrap. -/
theorem witness_EdgeMeasuresPositiveInterval :
    let b := { bank0 with lastEdgeTime := 0xFFFFFFFF }
    (running.configOk = true ∧ running.banks[(0 : Chan).toNat]? = some bank0 ∧ bank0.tachoOk = true ∧
      bank0.edgeSeen = true ∧ (5001 : Word) = bank0.lastEdgeTime + BitVec.ofNat 32 1) ∧
    (0x7FFFFFFF < 2 ^ 31 ∧ (0x80001387 : Word) = bank0.lastEdgeTime + BitVec.ofNat 32 0x7FFFFFFF) ∧
    ((runningWith b).banks[(0 : Chan).toNat]? = some b ∧ (0 : Word) = b.lastEdgeTime + BitVec.ofNat 32 1) := by decide

theorem witness_TwoEdgesGiveTheRpm :
    running.configOk = true ∧ running.banks[(0 : Chan).toNat]? = some bank0 ∧ bank0.tachoOk = true ∧
    0 < 10 ∧ 10 < 2 ^ 31 := by decide

/-- A duplicate timestamp, and a tick behind by exactly `2^31`. -/
theorem witness_EdgeRejectsOtherInterval :
    running.configOk = true ∧ running.banks[(0 : Chan).toNat]? = some bank0 ∧ bank0.tachoOk = true ∧
    bank0.edgeSeen = true ∧ (5000 : Word) = bank0.lastEdgeTime - BitVec.ofNat 32 0 ∧
    (0x80001388 : Word) = bank0.lastEdgeTime - BitVec.ofNat 32 (2 ^ 31) := by decide

theorem witness_EdgeFrame :
    running.banks[(0 : Chan).toNat]? = some bank0 ∧
    exec (.edge 0 5010) running = .next (nextOf (exec (.edge 0 5010) running)) := ⟨by decide, rfl⟩

theorem witness_EdgesOfDifferentChannelsCommute :
    (0 : Chan) ≠ 1 ∧ running.configOk = true ∧ (0 : Chan).toNat < running.nChannels ∧
    (1 : Chan).toNat < running.nChannels := by decide

theorem witness_EdgeTimeIrrelevantBeforeFirstEdge :
    let s := runningWith fresh
    s.configOk = true ∧ s.banks[(0 : Chan).toNat]? = some fresh ∧ fresh.edgeSeen = false ∧ fresh.measuredRpm = 0 ∧
    fresh.tachoOk = true ∧ s.loopState = .running ∧ s.seq = .idle := by decide

theorem witness_StallDetection :
    running.configOk = true ∧ running.banks[(0 : Chan).toNat]? = some bank0 ∧ running.loopState = .running ∧
    running.seq = .idle := by decide

/-- The first tick that stalls, the last that does not, and a tick behind the edge by exactly `2^31`. -/
theorem witness_StallByElapsedTime :
    (running.configOk = true ∧ running.banks[(0 : Chan).toNat]? = some bank0 ∧ running.loopState = .running ∧
      running.seq = .idle ∧ bank0.measuredRpm ≠ 0) ∧
    (running.params.stallTimeoutMs.toNat < 1001 ∧ (6001 : Word) = bank0.lastEdgeTime + BitVec.ofNat 32 1001) ∧
    (1000 ≤ running.params.stallTimeoutMs.toNat ∧ (6000 : Word) = bank0.lastEdgeTime + BitVec.ofNat 32 1000) ∧
    (0x80001388 : Word) = bank0.lastEdgeTime - BitVec.ofNat 32 (2 ^ 31) := by decide

theorem witness_StallReportedOnce :
    running.seq = .idle ∧ running.loopState = .running ∧
    exec (.stall 0 6001) running = .next (nextOf (exec (.stall 0 6001) running)) ∧
    (nextOf (exec (.stall 0 6001) running)).hist = running.hist ++ [.stall 0] := ⟨rfl, rfl, rfl, by decide⟩

/-- The EDGE comes when the channel is about to stall, and the STALL's tick is the timeout later. -/
theorem witness_EdgeBeforeStallPreventsIt :
    running.banks[(0 : Chan).toNat]? = some bank0 ∧ bank0.tachoOk = true ∧ running.loopState = .running ∧
    running.seq = .idle ∧ exec (.edge 0 6001) running = .next (nextOf (exec (.edge 0 6001) running)) ∧
    ((7001 : Word) - 6001).toInt ≤ running.params.stallTimeoutMs.toNat :=
  ⟨by decide, rfl, rfl, rfl, rfl, by decide⟩

theorem witness_MapWritesClampedTarget :
    running.configOk = true ∧ running.banks[(0 : Chan).toNat]? = some bank0 ∧ running.loopState = .running ∧
    running.seq = .idle ∧ bank0.adcOk = true := by decide

/-- Zero, exactly full scale, and the largest sample. -/
theorem witness_MapEndpoints :
    (running.configOk = true ∧ running.banks[(0 : Chan).toNat]? = some bank0 ∧ running.loopState = .running ∧
      running.seq = .idle ∧ bank0.adcOk = true) ∧
    bank0.conf.fullScaleMv.toNat ≤ (3000 : Word).toNat ∧ bank0.conf.fullScaleMv.toNat ≤ (0xFFFFFFFF : Word).toNat := by
  decide

theorem witness_MapWithoutSampleKeepsTarget :
    (running.configOk = true ∧ running.loopState = .running ∧ running.seq = .idle) ∧
    (running.banks[(1 : Chan).toNat]? = some bank1 ∧ bank1.adcOk = false) ∧
    (running.banks[(0 : Chan).toNat]? = some bank0 ∧ bank0.adcOk = true) := by decide

/-- The largest target there is. -/
theorem witness_DutyCommitsPulse :
    let b := { bank0 with targetRpm := 4000 }
    (runningWith b).configOk = true ∧ (runningWith b).banks[(0 : Chan).toNat]? = some b ∧
    (runningWith b).loopState = .running ∧ (runningWith b).seq = .idle ∧ b.pwmOk = true ∧
    b.targetRpm.toNat ≤ b.conf.rpmMax.toNat := by decide

theorem witness_DutySkippedWithoutPwm :
    running.configOk = true ∧ running.banks[(1 : Chan).toNat]? = some bank1 ∧ running.loopState = .running ∧
    running.seq = .idle ∧ bank1.pwmOk = false := by decide

/-- With a STALL that detects a stall of the same channel in between, and with an EDGE of it. -/
theorem witness_DutyRepeatsItsPulse :
    ∀ i ∈ [Instr.edge 0 5010, .stall 0 6001],
      let s := runningWith { bank0 with targetRpm := 2000 }
      let t := nextOf (exec (.duty 0 true) s)
      let u := nextOf (exec i t)
      let v := nextOf (exec (.duty 0 false) u)
      s.seq = .idle ∧ exec (.duty 0 true) s = .next t ∧ exec i t = .next u ∧ exec (.duty 0 false) u = .next v ∧
      exec (.duty 0 false) v = .next (nextOf (exec (.duty 0 false) v)) := by
  intro i h
  rcases List.mem_cons.1 h with rfl | h
  · exact ⟨rfl, rfl, rfl, rfl, rfl⟩
  · rcases List.mem_singleton.1 h with rfl
    exact ⟨rfl, rfl, rfl, rfl, rfl⟩

theorem witness_PeriodStartsCycle :
    running.configOk = true ∧ running.loopState = .running ∧ running.seq = .idle := by decide

theorem witness_TempRecordsSample :
    running.configOk = true ∧ running.loopState = .running ∧ running.seq = .idle := by decide

theorem witness_LogReportsEveryChannel :
    running.configOk = true ∧ running.loopState = .running ∧ running.seq = .idle ∧
    running.banks[1]? = some bank1 := by decide

theorem witness_RdregReadsChannelRegister :
    running.configOk = true ∧ running.banks[(1 : Chan).toNat]? = some bank1 := by decide

theorem witness_RdregReadsGlobalRegister : (cycleAt .temp).configOk = true := by decide

/-- One position of each kind, answered; the last channel's duty is one of them. -/
theorem witness_SequencerStepIsDirectCommand :
    (cycleAt (.stall 1)).configOk = true ∧ (cycleAt (.stall 1)).loopState = .running ∧
    (1 : Chan).toNat < (cycleAt (.stall 1)).nChannels ∧ (cycleAt (.stall 1)).seq = .stall 1 ∧
    ({ cycleAt (.map 0) with answer := some (.adc true 1500) } : State).answer = some (.adc true 1500) ∧
    ({ cycleAt (.duty 1) with answer := some (.pwm false) } : State).answer = some (.pwm false) ∧
    ({ cycleAt .temp with answer := some (.temp true 25) } : State).answer = some (.temp true 25) ∧
    (cycleAt .log).seq = .log := by decide

theorem witness_CycleFollowsTheTable :
    (cycleAt (.duty 1)).seq ≠ .idle ∧ (cycleAt (.duty 1)).inputs.head? ≠ some .reset ∧
    step (cycleAt (.duty 1)) = .next (nextOf (step (cycleAt (.duty 1)))) := ⟨by decide, by decide, rfl⟩

theorem witness_SkippedSubsystemDrawsNothing :
    ((cycleAt (.map 1)).configOk = true ∧ (cycleAt (.map 1)).inputs = [] ∧
      (cycleAt (.map 1)).banks[(1 : Chan).toNat]? = some bank1 ∧ (cycleAt (.map 1)).seq = .map 1) ∧
    bank1.adcOk = false ∧ ((cycleAt (.duty 1)).seq = .duty 1 ∧ bank1.pwmOk = false) ∧
    (({ cycleAt .temp with tempOk := false } : State).seq = .temp ∧
      ({ cycleAt .temp with tempOk := false } : State).tempOk = false) := by decide

/-- While the ADC is silent, a command of the main agent comes; and the main agent takes a turn. -/
theorem witness_UnansweredRequestIsStuck :
    ∀ s ∈ [facing .turn (cycleAt (.map 0)), presenting .main 0x9 (cycleAt (.map 0))],
      s.Inv ∧ s.waiting = true ∧ (∀ r, s.inputs.head? ≠ some (.answer r)) ∧ s.inputs.head? ≠ some .reset ∧
      step s = .next (nextOf (step s)) := by
  intro s h
  rcases List.mem_cons.1 h with rfl | h
  · exact ⟨by decide, by decide, by simp [facing], by decide, rfl⟩
  · rcases List.mem_singleton.1 h with rfl
    exact ⟨by decide, by decide, by simp [presenting], by decide, rfl⟩

theorem witness_CycleTakesThreePerChannelPlusTwoSteps :
    let ds : List Draw := [⟨true, 1500, true⟩, ⟨false, 0, false⟩]
    let s : State := { cycleAt (.stall 0) with inputs := cycleScript ds true 25 ++ [.turn] }
    s.configOk = true ∧ s.seq = .stall 0 ∧ s.answer = none ∧ ds.length = s.nChannels ∧
    s.inputs = cycleScript ds true 25 ++ [.turn] := by decide

theorem witness_CycleCommandsEqualPeriodCycle :
    running.configOk = true ∧ running.loopState = .running ∧ running.seq = .idle ∧ running.answer = none ∧
    running.held = [] ∧ [(⟨true, 1500, true⟩ : Draw), ⟨false, 0, false⟩].length = running.nChannels ∧
    running.inputs = [] := by decide

/-- A step of a running cycle, and one that raises a fault. -/
theorem witness_StepKeepsInvariant :
    ((cycleAt (.stall 0)).Inv ∧ step (cycleAt (.stall 0)) = .next (nextOf (step (cycleAt (.stall 0))))) ∧
    (presenting .main 0 running).Inv ∧
    step (presenting .main 0 running) = .next (nextOf (step (presenting .main 0 running))) :=
  ⟨⟨by decide, rfl⟩, by decide, rfl⟩

theorem witness_PowerOnMeetsInvariant : Config.default.wf = true := by decide

theorem witness_NothingIsFatal : (presenting .main 0xFF running).Inv := by decide

theorem witness_HistoryOnlyGrows : step (cycleAt .log) = .next (nextOf (step (cycleAt .log))) := rfl

theorem witness_ConfigurationNeverChanges :
    step (facing .reset running) = .next (nextOf (step (facing .reset running))) := rfl

theorem witness_FirstFaultCauseIsSticky :
    let s := presenting .main 0 faulted
    s.faultCause ≠ 0 ∧ s.inputs.head? ≠ some .reset ∧ step s = .next (nextOf (step s)) := ⟨by decide, by decide, rfl⟩

/-- The command is one that would change them in INIT. -/
theorem witness_RunningIsTerminal :
    let s := presenting .main 0x01 running
    s.loopState = .running ∧ s.inputs.head? ≠ some .reset ∧ step s = .next (nextOf (step s)) := ⟨rfl, by decide, rfl⟩

theorem witness_EdgeSeenClearedByResetOnly :
    let s := presenting .main 0x0000177100000005 running
    s.banks[0]? = some bank0 ∧ bank0.edgeSeen = true ∧ s.inputs.head? ≠ some .reset ∧
    step s = .next (nextOf (step s)) := ⟨rfl, rfl, by decide, rfl⟩

theorem witness_CommandChangesNoOtherBank :
    exec (.map 0 true 1500) running = .next (nextOf (exec (.map 0 true 1500) running)) ∧ (1 : Chan) ≠ 0 ∧
    exec (.period 7000) running = .next (nextOf (exec (.period 7000) running)) := ⟨rfl, by decide, rfl⟩

theorem witness_BytesDecodeAsTheirWord : ([0x09, 0, 0, 0, 0, 0, 0] : List (BitVec 8)).length ≠ 8 := by decide

end Sys2Proof.Tests
end

/-! The statements of spec/00_scope.md: an ill-formed configuration is refused (R15), and CONTROL_PERIOD_MS is
documentation only (R13). -/

namespace Sys2Proof.Machine

/-! R15: the configuration check is the rule's list of constraints, and where it fails nothing runs. -/

theorem Params.wf_iff (p : Params) :
    p.wf = true ↔ 1 ≤ p.ppr.toNat ∧ 1 ≤ p.msPerMin.toNat ∧ p.stallTimeoutMs.toNat ≤ 2 ^ 31 - 1 := by
  simp only [Params.wf, Bool.and_eq_true, decide_eq_true_eq, and_assoc]

theorem ChanConfig.wf_iff (k : ChanConfig) :
    k.wf = true ↔ 1 ≤ k.rpmMax.toNat ∧ k.rpmMin.toNat ≤ k.rpmMax.toNat ∧ 1 ≤ k.fullScaleMv.toNat := by
  simp only [ChanConfig.wf, Bool.and_eq_true, decide_eq_true_eq, and_assoc]

/-- The check of the configuration, spelt out. -/
theorem State.configOk_iff_bounds (s : State) :
    s.configOk = true ↔
      1 ≤ s.banks.length ∧ s.banks.length ≤ 256 ∧ 1 ≤ s.params.ppr.toNat ∧ 1 ≤ s.params.msPerMin.toNat ∧
      s.params.stallTimeoutMs.toNat ≤ 2 ^ 31 - 1 ∧
      ∀ b ∈ s.banks, 1 ≤ b.conf.rpmMax.toNat ∧ b.conf.rpmMin.toNat ≤ b.conf.rpmMax.toNat ∧
        1 ≤ b.conf.fullScaleMv.toNat := by
  simp only [State.configOk_iff, Params.wf_iff, ChanConfig.wf_iff, State.nChannels]
  tauto

theorem exec_illFormedConfig {s : State} (i : Instr) (hc : s.configOk = false) :
    exec i s = .refused .illFormedConfig := by
  rw [exec_eq_execute, execute_illFormedConfig hc]

theorem step_illFormedConfig {s : State} (hc : s.configOk = false) : step s = .refused .illFormedConfig := by
  simp [step, nextStep, hc]

/-- Settles O10: the configuration check decides R15, and both the step and every command make it first. -/
theorem illFormedConfigurationRefused : Obligations.IllFormedConfigurationRefused := by
  intro s i hill
  have hc : s.configOk = false := Bool.eq_false_iff.2 fun h => hill (s.configOk_iff_bounds.1 h)
  exact ⟨step_illFormedConfig hc, exec_illFormedConfig i hc⟩

/-! R13: replacing CONTROL_PERIOD_MS commutes with everything a step is made of. First what the replacement leaves as
it was. -/

/-- The outcome with another CONTROL_PERIOD_MS in its next state, if it has one. -/
def Result.withControlPeriod (p : Nat) : Result → Result
  | .next t => .next (t.withControlPeriod p)
  | .fault f => .fault f
  | .refused r => .refused r

section
variable (s : State) (p : Nat)

@[simp] theorem Result.withControlPeriod_next :
    Result.withControlPeriod p (.next s) = .next (s.withControlPeriod p) := rfl
@[simp] theorem Result.withControlPeriod_refused (r : Refusal) :
    Result.withControlPeriod p (.refused r) = .refused r := rfl

@[simp] theorem State.withControlPeriod_loopState : (s.withControlPeriod p).loopState = s.loopState := rfl
@[simp] theorem State.withControlPeriod_tempOk : (s.withControlPeriod p).tempOk = s.tempOk := rfl
@[simp] theorem State.withControlPeriod_seq : (s.withControlPeriod p).seq = s.seq := rfl
@[simp] theorem State.withControlPeriod_cycleNow : (s.withControlPeriod p).cycleNow = s.cycleNow := rfl
@[simp] theorem State.withControlPeriod_inputs : (s.withControlPeriod p).inputs = s.inputs := rfl
@[simp] theorem State.withControlPeriod_held : (s.withControlPeriod p).held = s.held := rfl
@[simp] theorem State.withControlPeriod_answer : (s.withControlPeriod p).answer = s.answer := rfl
@[simp] theorem State.withControlPeriod_nChannels : (s.withControlPeriod p).nChannels = s.nChannels := rfl
@[simp] theorem State.withControlPeriod_afterDuty (c : Chan) :
    (s.withControlPeriod p).afterDuty c = s.afterDuty c := rfl
@[simp] theorem State.withControlPeriod_bank? (c : Chan) : (s.withControlPeriod p).bank? c = s.bank? c := rfl
@[simp] theorem State.withControlPeriod_heldFirst (a : Agent) :
    (s.withControlPeriod p).heldFirst a = s.heldFirst a := rfl
@[simp] theorem State.withControlPeriod_requests (r : Answer) :
    (s.withControlPeriod p).requests r = s.requests r := rfl
@[simp] theorem State.withControlPeriod_configOk : (s.withControlPeriod p).configOk = s.configOk := rfl

/-! The updates of the state. -/

@[simp] theorem State.consume_withControlPeriod (rest : List Input) :
    (s.withControlPeriod p).consume rest = (s.consume rest).withControlPeriod p := rfl
@[simp] theorem State.keepHeld_withControlPeriod (later : List Instr) :
    (s.withControlPeriod p).keepHeld later = (s.keepHeld later).withControlPeriod p := rfl
@[simp] theorem State.advance_withControlPeriod (q : SeqPos) :
    (s.withControlPeriod p).advance q = (s.advance q).withControlPeriod p := rfl
@[simp] theorem State.raise_withControlPeriod (k : Cause) (w : CmdWord) :
    (s.withControlPeriod p).raise k w = (s.raise k w).withControlPeriod p := rfl

@[simp] theorem State.deliver_withControlPeriod (r : Answer) :
    (s.withControlPeriod p).deliver r = (s.deliver r).withControlPeriod p := by
  unfold State.deliver
  rw [State.withControlPeriod_requests, State.withControlPeriod_answer]
  split <;> rfl

/-! The operations: EDGE and STALL read the parameters, and of them only PPR, MS_PER_MIN and STALL_TIMEOUT_MS. -/

@[simp] theorem Bank.stalled_withControlPeriod (now : Word) (b : Bank) :
    b.stalled (s.withControlPeriod p).params now = b.stalled s.params now := rfl

@[simp] theorem edgeOp_withControlPeriod (c : Chan) (now : Word) (b : Bank) :
    edgeOp c now b (s.withControlPeriod p) = (edgeOp c now b s).withControlPeriod p := by
  unfold edgeOp
  split <;> rfl

@[simp] theorem stallOp_withControlPeriod (c : Chan) (now : Word) (b : Bank) :
    stallOp c now b (s.withControlPeriod p) = (stallOp c now b s).withControlPeriod p := by
  unfold stallOp
  rw [Bank.stalled_withControlPeriod]
  split <;> rfl

@[simp] theorem mapOp_withControlPeriod (c : Chan) (v : Bool) (mv : Word) (b : Bank) :
    mapOp c v mv b (s.withControlPeriod p) = (mapOp c v mv b s).withControlPeriod p := by
  unfold mapOp
  split
  · split <;> rfl
  · rfl

@[simp] theorem dutyOp_withControlPeriod (c : Chan) (rdy : Bool) (b : Bank) :
    dutyOp c rdy b (s.withControlPeriod p) = (dutyOp c rdy b s).withControlPeriod p := by
  unfold dutyOp
  split <;> rfl

@[simp] theorem tempOp_withControlPeriod (tv : Bool) (t : Word) :
    tempOp tv t (s.withControlPeriod p) = (tempOp tv t s).withControlPeriod p := by
  unfold tempOp
  rw [State.withControlPeriod_tempOk]
  split
  · split <;> rfl
  · rfl

/-! Commands. -/

/-- Reaching a bank commutes with the replacement if what is done with the bank does. -/
theorem withBank_withControlPeriod {c : Chan} {f g : Bank → Result}
    (h : ∀ b, g b = Result.withControlPeriod p (f b)) :
    withBank c (s.withControlPeriod p) g = Result.withControlPeriod p (withBank c s f) := by
  simp only [withBank, State.withControlPeriod_bank?]
  cases s.bank? c with
  | none => rfl
  | some b => exact h b

@[simp] theorem accept_withControlPeriod (v : Word) :
    accept v (s.withControlPeriod p) = Result.withControlPeriod p (accept v s) := rfl

/-- A command's own rule; RDREG reads no register that shows CONTROL_PERIOD_MS. -/
theorem ownRule_withControlPeriod (i : Instr) :
    ownRule i (s.withControlPeriod p) = Result.withControlPeriod p (ownRule i s) := by
  rcases i with _ | _ | _ | _ | _ | _ | _ | _ | _ | ⟨_, r | r⟩
  case initCh | rdreg.chan => exact withBank_withControlPeriod s p fun b => rfl
  case edge | stall | map | duty => exact withBank_withControlPeriod s p fun b => by simp
  case initDone | period | log => rfl
  case temp => simp [ownRule]
  case rdreg.glob => cases r <;> rfl

@[simp] theorem exec_withControlPeriod (i : Instr) :
    exec i (s.withControlPeriod p) = Result.withControlPeriod p (exec i s) := by
  simp only [exec_eq_execute]
  cases hc : s.configOk with
  | false => simp [execute_illFormedConfig, hc]
  | true =>
    cases hf : operandFault s.nChannels i with
    | some k => simp [execute_operandFault, hc, hf]
    | none =>
      have hw := (operandFault_eq_none_iff _ _).1 hf
      cases hl : legalIn i s.loopState with
      | false => simp [execute_wrongState, hc, hw, hl]
      | true =>
        by_cases hs : holdable i = false ∨ s.seq = .idle
        · rw [execute_run hc hw hl hs, execute_run (s := s.withControlPeriod p) hc hw hl hs,
            ownRule_withControlPeriod]
        · obtain ⟨hh, hs⟩ := not_or.1 hs
          have hh := Bool.eq_true_of_not_eq_false hh
          rw [execute_hold hc hw hl hh hs, execute_hold (s := s.withControlPeriod p) hc hw hl hh hs]
          rfl

@[simp] theorem executeWord_withControlPeriod (w : CmdWord) :
    executeWord w (s.withControlPeriod p) = Result.withControlPeriod p (executeWord w s) := by
  simp only [executeWord, State.withControlPeriod_nChannels]
  cases decode s.nChannels w with
  | cmd i => exact exec_withControlPeriod s p i
  | fault k => rfl

/-! The agents' steps. -/

/-- A sequencer step: at each position the same row of R139 applies, with the same answer if it draws one. -/
theorem sequencerStep_withControlPeriod :
    sequencerStep (s.withControlPeriod p) = Result.withControlPeriod p (sequencerStep s) := by
  simp only [sequencerStep, State.withControlPeriod_seq]
  cases s.seq with
  | idle => rfl
  | stall c => exact withBank_withControlPeriod s p fun b => by simp
  | map c =>
    refine withBank_withControlPeriod s p fun b => ?_
    cases b.adcOk with
    | false => rfl
    | true => rcases ha : s.answer with _ | (_ | _ | _) <;> simp [ha]
  | duty c =>
    refine withBank_withControlPeriod s p fun b => ?_
    cases b.pwmOk with
    | false => rfl
    | true => rcases ha : s.answer with _ | (_ | _ | _) <;> simp [ha]
  | temp =>
    cases ht : s.tempOk with
    | false => simp [ht]
    | true => rcases ha : s.answer with _ | (_ | _ | _) <;> simp [ha, ht]
  | log => rfl

theorem mainTurn_withControlPeriod :
    mainTurn (s.withControlPeriod p) = Result.withControlPeriod p (mainTurn s) := by
  simp only [mainTurn, State.withControlPeriod_seq, State.withControlPeriod_held, State.keepHeld_withControlPeriod,
    exec_withControlPeriod, sequencerStep_withControlPeriod]
  split <;> rfl

theorem step_withControlPeriod : step (s.withControlPeriod p) = Result.withControlPeriod p (step s) := by
  cases hc : s.configOk with
  | false => simp [step_illFormedConfig, hc]
  | true =>
    simp only [step, nextStep, State.withControlPeriod_configOk, State.withControlPeriod_inputs,
      State.consume_withControlPeriod, mainTurn_withControlPeriod, executeWord_withControlPeriod, hc, if_true]
    cases s.inputs with
    | nil => rfl
    | cons x rest =>
      cases x with
      | command a w => cases ha : s.heldFirst a <;> simp [ha]
      | answer r => simp
      | turn => rfl
      | reset => rfl

end

/-- Settles O58: no part of a step reads CONTROL_PERIOD_MS, so replacing it commutes with the step. -/
theorem controlPeriodIsDocumentationOnly : Obligations.ControlPeriodIsDocumentationOnly := by
  intro s p
  rw [step_withControlPeriod]
  cases step s <;> rfl

end Sys2Proof.Machine

/-! The statements of spec/10_state.md section 2: the edge time before the first edge (R34), and the invariant of the
block, which carries R38 (with spec/45_control_loop.md R141). -/

namespace Sys2Proof.Machine

/-! Writing a bank and reaching it again. -/

theorem State.bank?_setBank_same {s : State} {c : Chan} (b : Bank) (h : c.toNat < s.nChannels) :
    (s.setBank c b).bank? c = some b := by
  unfold State.nChannels at h
  simp [State.bank?, h]

@[simp] theorem State.setBank_setBank_same (s : State) (c : Chan) (a b : Bank) :
    (s.setBank c a).setBank c b = s.setBank c b := by
  simp [State.setBank]

/-- EDGE is accepted in every loop state and position (spec/45_control_loop.md R133, R134). -/
theorem exec_edge {s : State} {c : Chan} {b : Bank} (now : Word) (hc : s.configOk = true) (hb : s.bank? c = some b) :
    exec (.edge c now) s = .next ((edgeOp c now b s).respond 0) :=
  exec_of_effect hc (decide_eq_true (State.lt_of_bank? hb)) rfl (.inl rfl) ⟨b, hb, rfl⟩

/-- STALL is accepted in RUNNING at IDLE (spec/45_control_loop.md R134, R138). -/
theorem exec_stall {s : State} {c : Chan} {b : Bank} (now : Word) (hc : s.configOk = true) (hb : s.bank? c = some b)
    (hl : s.loopState = .running) (hs : s.seq = .idle) :
    exec (.stall c now) s = .next ((stallOp c now b s).respond 0) :=
  exec_of_effect hc (decide_eq_true (State.lt_of_bank? hb)) (decide_eq_true hl) (.inr hs) ⟨b, hb, rfl⟩

/-! R34: the first edge overwrites the edge time unread, and a reading of 0 is no stall. -/

theorem Bank.recordEdge_of_firstEdge {b : Bank} (p : Params) (now x : Word) (he : b.edgeSeen = false) :
    Bank.recordEdge p now { b with lastEdgeTime := x } = b.recordEdge p now := by
  simp [Bank.recordEdge, he]

theorem edgeOp_of_firstEdge {b : Bank} (s : State) (c : Chan) (now x : Word) (ht : b.tachoOk = true)
    (he : b.edgeSeen = false) :
    edgeOp c now { b with lastEdgeTime := x } (s.setBank c { b with lastEdgeTime := x }) = edgeOp c now b s := by
  unfold edgeOp
  rw [if_pos ht, if_pos ht, State.setBank_setBank_same, State.setBank_params, Bank.recordEdge_of_firstEdge _ _ _ he]

theorem exec_stall_of_measuredRpm_zero {s : State} {c : Chan} {b : Bank} (now : Word) (hc : s.configOk = true)
    (hb : s.bank? c = some b) (hl : s.loopState = .running) (hs : s.seq = .idle) (hm : b.measuredRpm = 0) :
    exec (.stall c now) s = .next (s.respond 0) := by
  have hop : stallOp c now b s = s := by simp [stallOp, Bank.stalled, hm]
  rw [exec_stall now hc hb hl hs, hop]

/-- Settles O27: the bank with the other edge time records the same edge, and in neither state is there a stall. -/
theorem edgeTimeIrrelevantBeforeFirstEdge : Obligations.EdgeTimeIrrelevantBeforeFirstEdge := by
  intro s c now x b hc hb he hm
  have hcfg : (s.setBank c { b with lastEdgeTime := x }).config = s.config := State.config_setBank hb rfl
  have hc' := (State.configOk_of_config hcfg).trans hc
  have hb' := State.bank?_setBank_same { b with lastEdgeTime := x } (State.lt_of_bank? hb)
  refine ⟨fun ht => ?_, fun hl hs => ⟨?_, ?_⟩⟩
  · rw [exec_edge now hc' hb', exec_edge now hc hb, edgeOp_of_firstEdge s c now x ht he]
  · exact exec_stall_of_measuredRpm_zero now hc' hb' hl hs hm
  · exact exec_stall_of_measuredRpm_zero now hc hb hl hs hm

/-! What `Keeps` relates has the same outstanding request and the same positions in range, so it keeps the
invariant. -/

section
variable {s t : State}

theorem Keeps.bank?_oks (k : Keeps s t) (c : Chan) : (t.bank? c).map Bank.oks = (s.bank? c).map Bank.oks := by
  simpa [State.bank?] using congrArg (·[c.toNat]?) k.oks

/-- A request rests on the position and on ok bits only (spec/45_control_loop.md R139, R140). -/
theorem Keeps.requests (k : Keeps s t) (r : Answer) : t.requests r = s.requests r := by
  have hany (c : Chan) (f : Bool × Bool × Bool → Bool) :
      (t.bank? c).any (fun b => f b.oks) = (s.bank? c).any (fun b => f b.oks) := by
    simpa [Option.any_map, Function.comp_def] using congrArg (·.any f) (k.bank?_oks c)
  have hadc (c : Chan) : (t.bank? c).any (·.adcOk) = (s.bank? c).any (·.adcOk) := hany c (·.2.1)
  have hpwm (c : Chan) : (t.bank? c).any (·.pwmOk) = (s.bank? c).any (·.pwmOk) := hany c (·.2.2)
  cases r <;> simp only [State.requests, k.seq, k.tempOk, hadc, hpwm]

theorem Keeps.inv (k : Keeps s t) (h : s.Inv) : t.Inv := by
  obtain ⟨hc, hb, hr, hrun, hf, hh, hhr, ha⟩ := h
  have hn := State.nChannels_of_config k.config
  have hreq : t.requests = s.requests := funext k.requests
  refine ⟨(State.configOk_of_config k.config).trans hc, k.banksOk hb, ?_, ?_, ?_, ?_, ?_, ?_⟩
  · simpa only [State.seqInRange, k.seq, hn] using hr
  · simpa only [k.seq, k.loopState] using hrun
  · simpa only [k.faultCause] using hf
  · simpa only [k.held, hn] using hh
  · simpa only [k.held, k.loopState] using hhr
  · simpa only [k.answer, hreq] using ha

/-! What the invariant gives in the two loop states. -/

/-- No answer is kept at IDLE: there is no request (spec/45_control_loop.md R140). -/
theorem State.Inv.answer_of_idle (h : s.Inv) (hs : s.seq = .idle) : s.answer = none := by
  obtain ⟨-, -, -, -, -, -, -, ha⟩ := h
  cases hans : s.answer with
  | none => rfl
  | some r => cases r <;> simp [hans, State.requests, hs] at ha

/-- In INIT no cycle runs and nothing is held or answered (spec/45_control_loop.md R134, R141). -/
theorem State.Inv.idle_of_init (h : s.Inv) (hl : s.loopState = .init) :
    s.seq = .idle ∧ s.held = [] ∧ s.answer = none := by
  have ⟨_, _, _, hrun, _, _, hhr, _⟩ := h
  have hs : s.seq = .idle := by
    by_contra hs
    simpa [hl] using hrun hs
  refine ⟨hs, ?_, h.answer_of_idle hs⟩
  by_contra hh
  simpa [hl] using hhr hh

/-! The updates of the state that the commands and the steps share. -/

theorem State.Inv.consume (h : s.Inv) (rest : List Input) : (s.consume rest).Inv := h

theorem State.Inv.respond (h : s.Inv) (v : Word) : (s.respond v).Inv := h

theorem State.Inv.raise (h : s.Inv) (k : Cause) (w : CmdWord) : (s.raise k w).Inv := by
  obtain ⟨hc, hb, hr, hrun, hf, hh, hhr, ha⟩ := h
  refine ⟨hc, hb, hr, hrun, ?_, hh, hhr, ha⟩
  rw [State.raise_faultCause]
  split
  · cases k <;> decide
  · exact hf

/-- A command is held after its checks, in a running cycle (spec/45_control_loop.md R137, R138). -/
theorem State.Inv.hold {i : Instr} (h : s.Inv) (hw : i.wf s.nChannels = true) (hi : holdable i = true)
    (hs : s.seq ≠ .idle) : (s.hold i).Inv := by
  obtain ⟨hc, hb, hr, hrun, hf, hh, -, ha⟩ := h
  refine ⟨hc, hb, hr, hrun, hf, fun j hj => ?_, fun _ => hrun hs, ha⟩
  rcases List.mem_append.1 hj with hj | hj
  · exact hh j hj
  · rw [List.mem_singleton.1 hj]
    exact ⟨hw, hi⟩

theorem State.Inv.keepHeld {i : Instr} {later : List Instr} (h : s.Inv) (hh : s.held = i :: later) :
    (s.keepHeld later).Inv := by
  obtain ⟨hc, hb, hr, hrun, hf, hheld, hhr, ha⟩ := h
  exact ⟨hc, hb, hr, hrun, hf, fun j hj => hheld j (hh ▸ List.mem_cons_of_mem i hj),
    fun _ => hhr (hh ▸ List.cons_ne_nil i later), ha⟩

theorem State.Inv.deliver (h : s.Inv) (r : Answer) : (s.deliver r).Inv := by
  rcases s.deliver_cases r with ⟨he, hreq, -⟩ | he <;> rw [he]
  · obtain ⟨hc, hb, hr, hrun, hf, hh, hhr, -⟩ := h
    exact ⟨hc, hb, hr, hrun, hf, hh, hhr, hreq⟩
  · exact h

/-- In a running block the sequencer may move to any position that names a bank the block has. -/
theorem State.Inv.advance {p : SeqPos} (h : s.Inv) (hl : s.loopState = .running)
    (hp : (s.advance p).seqInRange = true) : (s.advance p).Inv := by
  obtain ⟨hc, hb, -, -, hf, hh, hhr, -⟩ := h
  exact ⟨hc, hb, hp, fun _ => hl, hf, hh, hhr, rfl⟩

theorem Bank.atReset_ok {k : ChanConfig} (p : Params) (h : k.wf = true) : (Bank.atReset k).Ok p := by
  obtain ⟨-, hle, -⟩ := ChanConfig.wf_bounds h
  exact ⟨fun hm => absurd rfl hm, le_rfl, hle, Nat.zero_le _⟩

theorem State.config_resetBlock (s : State) : s.resetBlock.config = s.config := by
  simp [State.config, Bank.atReset, Function.comp_def]

theorem State.Inv.resetBlock (h : s.Inv) : s.resetBlock.Inv := by
  obtain ⟨hc, -⟩ := h
  obtain ⟨-, -, -, hconf⟩ := s.configOk_iff.1 hc
  refine ⟨(State.configOk_of_config s.config_resetBlock).trans hc, fun a ha => ?_, rfl, fun hs => absurd rfl hs,
    Nat.zero_le _, fun _ hi => absurd hi List.not_mem_nil, fun hs => absurd rfl hs, rfl⟩
  simp only [State.resetBlock_banks, List.mem_map] at ha
  obtain ⟨b, hb, rfl⟩ := ha
  exact Bank.atReset_ok _ (hconf b hb)

/-! The commands. The three that `Keeps` does not cover: INIT_CH and INIT_DONE change ok bits and PERIOD the position,
each where there is no request. -/

theorem initChOp_inv {c : Chan} {b : Bank} (fl : BitVec 3) (h : s.Inv) (hl : s.loopState = .init)
    (hb : s.bank? c = some b) : (initChOp c fl b s).Inv := by
  obtain ⟨hs, hheld, hans⟩ := h.idle_of_init hl
  obtain ⟨hc, hbanks, -, -, hf, -⟩ := h
  have hcfg : (initChOp c fl b s).config = s.config := State.config_setBank hb rfl
  refine ⟨(State.configOk_of_config hcfg).trans hc, fun a ha => ?_, ?_, ?_, hf, ?_, ?_, ?_⟩
  · rcases List.mem_or_eq_of_mem_set ha with ha | rfl
    · exact hbanks a ha
    · exact hbanks b (State.mem_of_bank? hb)
  all_goals simp [initChOp, State.seqInRange, hs, hheld, hans]

theorem initDoneOp_inv (tv : Bool) (h : s.Inv) (hl : s.loopState = .init) : (initDoneOp tv s).Inv := by
  obtain ⟨-, -, hans⟩ := h.idle_of_init hl
  obtain ⟨hc, hb, hr, -, hf, hh, -⟩ := h
  exact ⟨hc, hb, hr, fun _ => rfl, hf, hh, fun _ => rfl, by simp [initDoneOp, hans]⟩

theorem State.Inv.startCycle (h : s.Inv) (hl : s.loopState = .running) (hs : s.seq = .idle) (now : Word) :
    State.Inv { s with cycleNow := now, seq := .stall 0 } := by
  have hans := h.answer_of_idle hs
  obtain ⟨hc, hb, -, -, hf, hh, hhr, -⟩ := h
  obtain ⟨-, hpos, -⟩ := s.configOk_iff.1 hc
  exact ⟨hc, hb, decide_eq_true hpos, fun _ => hl, hf, hh, hhr, by simp [hans]⟩

/-- The own effect of a legal command keeps the invariant. -/
theorem Effect.inv {i : Instr} (h : s.Inv) (hl : legalIn i s.loopState = true)
    (hi : holdable i = false ∨ s.seq = .idle) (he : Effect i s t) : t.Inv := by
  have ⟨hc, _⟩ := h
  cases i with
  | initCh c fl =>
    obtain ⟨b, hb, rfl⟩ := he
    exact (initChOp_inv fl h (of_decide_eq_true hl) hb).respond 0
  | initDone tv =>
    obtain rfl := he
    exact (initDoneOp_inv tv h (of_decide_eq_true hl)).respond 0
  | period now =>
    obtain rfl := he
    exact (h.startCycle (of_decide_eq_true hl) (hi.resolve_left Bool.noConfusion) now).respond 0
  | edge c now =>
    obtain ⟨b, hb, rfl⟩ := he
    exact ((edgeOp_keeps now hb).inv h).respond 0
  | stall c now =>
    obtain ⟨b, hb, rfl⟩ := he
    exact ((stallOp_keeps now hb).inv h).respond 0
  | map c v mv =>
    obtain ⟨b, hb, rfl⟩ := he
    exact ((mapOp_keeps v mv hc hb).inv h).respond 0
  | duty c rdy =>
    obtain ⟨b, -, rfl⟩ := he
    exact ((dutyOp_keeps rdy).inv h).respond _
  | temp tv x => exact he ▸ ((tempOp_keeps tv x).inv h).respond 0
  | log => exact he ▸ (logOp_keeps.inv h).respond 0
  | rdreg c r =>
    cases r with
    | chan r =>
      obtain ⟨b, -, rfl⟩ := he
      exact h.respond _
    | glob r => exact he ▸ h.respond _

theorem exec_inv {i : Instr} (h : s.Inv) (he : exec i s = .next t) : t.Inv := by
  obtain ⟨-, ⟨k, rfl⟩ | ⟨hw, -, hi, hs, rfl⟩ | ⟨-, hl, hi, heff⟩⟩ := exec_next_cases he
  · exact h.raise k _
  · exact h.hold hw hi hs
  · exact Effect.inv h hl hi heff

theorem executeWord_inv {w : CmdWord} (h : s.Inv) (he : executeWord w s = .next t) : t.Inv := by
  obtain ⟨i, -, he⟩ | ⟨k, -, rfl⟩ := executeWord_next_cases he
  · exact exec_inv h he
  · exact h.raise k w

/-! The sequencer: an operation that `Keeps` covers, then a move to a position in range. -/

/-- An operation followed by a move, in a cycle that runs. -/
theorem Keeps.advance_inv {p : SeqPos} (k : Keeps s t) (h : s.Inv) (hs : s.seq ≠ .idle)
    (hp : (s.advance p).seqInRange = true) : (t.advance p).Inv := by
  have ⟨_, _, _, hrun, _⟩ := h
  have hn : (t.advance p).nChannels = (s.advance p).nChannels := State.nChannels_of_config k.config
  refine (k.inv h).advance (k.loopState.trans (hrun hs)) ?_
  simpa only [State.seqInRange, State.advance_seq, hn] using hp

/-- R139: the position after `S_DUTY(c)` names a bank the block has; no channel index wraps, as there are at most 256
channels (spec/00_scope.md R15). -/
theorem State.seqInRange_afterDuty (hc : s.configOk = true) (c : Chan) :
    (s.advance (s.afterDuty c)).seqInRange = true := by
  obtain ⟨-, -, hmax, -⟩ := s.configOk_iff.1 hc
  unfold State.afterDuty
  split
  · rename_i hlt
    have hsucc : (c + 1).toNat = c.toNat + 1 := by bv_omega
    exact decide_eq_true (hsucc ▸ hlt)
  · rfl

theorem sequencerStep_inv (h : s.Inv) (he : sequencerStep s = .next t) : t.Inv := by
  have ⟨hc, _⟩ := h
  obtain rfl | ⟨c, b, hs, hb, rfl⟩ | ⟨c, b, hs, hb, hm⟩ | ⟨c, b, hs, hb, hd⟩ | ⟨hs, ht⟩ | ⟨hs, rfl⟩ :=
    sequencerStep_next_cases he
  · exact h
  · exact (stallOp_keeps _ hb).advance_inv h (by simp [hs]) (decide_eq_true (State.lt_of_bank? hb))
  · have hp : (s.advance (.duty c)).seqInRange = true := decide_eq_true (State.lt_of_bank? hb)
    obtain ⟨v, mv, -, -, rfl⟩ | ⟨-, rfl⟩ := hm
    · exact (mapOp_keeps v mv hc hb).advance_inv h (by simp [hs]) hp
    · exact (Keeps.refl s).advance_inv h (by simp [hs]) hp
  · have hp := State.seqInRange_afterDuty hc c
    obtain ⟨rdy, -, -, rfl⟩ | ⟨-, rfl⟩ := hd
    · exact (dutyOp_keeps rdy).advance_inv h (by simp [hs]) hp
    · exact (Keeps.refl s).advance_inv h (by simp [hs]) hp
  · obtain ⟨tv, x, -, -, rfl⟩ | ⟨-, rfl⟩ := ht
    · exact (tempOp_keeps tv x).advance_inv h (by simp [hs]) rfl
    · exact (Keeps.refl s).advance_inv h (by simp [hs]) rfl
  · exact logOp_keeps.advance_inv h (by simp [hs]) rfl

theorem mainTurn_inv (h : s.Inv) (he : mainTurn s = .next t) : t.Inv := by
  obtain ⟨-, -, rfl⟩ | ⟨i, later, -, hh, he⟩ | ⟨-, he⟩ := mainTurn_next_cases he
  · exact h
  · exact exec_inv (h.keepHeld hh) he
  · exact sequencerStep_inv h he

theorem step_inv (h : s.Inv) (he : step s = .next t) : t.Inv := by
  obtain ⟨-, ⟨rest, -, -, he⟩ | ⟨r, rest, -, rfl⟩ | ⟨rest, -, rfl⟩ | ⟨a, w, rest, -, -, he⟩⟩ := step_next_cases he
  · exact mainTurn_inv (h.consume rest) he
  · exact (h.consume rest).deliver r
  · exact (h.consume rest).resetBlock
  · exact executeWord_inv (h.consume rest) he

end

/-- Settles O49: each kind of step keeps the invariant, a turn, an answer, a reset and a presented word. -/
theorem stepKeepsInvariant : Obligations.StepKeepsInvariant :=
  fun _ _ => step_inv

end Sys2Proof.Machine

/-! The register view of spec/20_memory.md section 1: what RDREG reads (R62), and the two status words bit by bit
(R63, R64). -/

namespace Sys2Proof.Machine

/-! RDREG. -/

/-- RDREG is legal in every loop state and never held, so it reads whenever its bank is there. -/
theorem exec_rdreg_chan {s : State} {c : Chan} {b : Bank} (r : ChanReg) (hc : s.configOk = true)
    (hb : s.bank? c = some b) : exec (.rdreg c (.chan r)) s = .next (s.respond (b.readReg r)) :=
  exec_of_effect hc (decide_eq_true (State.lt_of_bank? hb)) rfl (.inl rfl) ⟨b, hb, rfl⟩

theorem exec_rdreg_glob {s : State} (r : GlobReg) (hc : s.configOk = true) :
    exec (.rdreg 0 (.glob r)) s = .next (s.respond (s.readGlob r)) :=
  exec_of_effect hc rfl rfl (.inl rfl) rfl

/-! The status words, as sums of their fields at their places. -/

/-- The fields of a concatenation do not overlap, so its value is a sum. -/
theorem toNat_append_eq_add {m n : Nat} (x : BitVec m) (y : BitVec n) :
    (x ++ y).toNat = 2 ^ n * x.toNat + y.toNat := by
  rw [BitVec.toNat_append, ← Nat.shiftLeft_add_eq_or_of_lt y.isLt, Nat.shiftLeft_eq, Nat.mul_comm]

theorem Bank.cstatus_toNat (b : Bank) :
    b.cstatus.toNat = b.edgeSeen.toNat + 2 * b.tachoOk.toNat + 4 * b.adcOk.toNat + 8 * b.pwmOk.toNat +
      16 * b.stallEvt.toNat := by
  simp only [Bank.cstatus, toNat_append_eq_add, BitVec.toNat_ofBool, BitVec.toNat_ofNat]
  omega

theorem LoopState.code_toNat (l : LoopState) : l.code.toNat = if l = .running then 1 else 0 := by
  cases l <;> rfl

theorem State.gstatus_toNat (s : State) :
    s.gstatus.toNat = (if s.loopState = .running then 1 else 0) + 2 * s.tempOk.toNat + 4 * s.tempValid.toNat +
      (if s.seq = .idle then 0 else 8) + 256 * s.faultCause.toNat := by
  have hbusy : 8 * (s.seq != .idle).toNat = if s.seq = .idle then 0 else 8 := by
    by_cases h : s.seq = .idle <;> simp [h]
  simp only [State.gstatus, toNat_append_eq_add, BitVec.toNat_ofBool, BitVec.toNat_ofNat, LoopState.code_toNat,
    ← hbusy]
  omega

/-- NCHAN is exact: a block has at most 256 channels (spec/00_scope.md R15). -/
theorem State.readGlob_nchan_toNat {s : State} (hc : s.configOk = true) :
    (s.readGlob .nchan).toNat = s.nChannels := by
  obtain ⟨-, -, hmax, -⟩ := s.configOk_iff.1 hc
  exact Nat.mod_eq_of_lt (by omega)

/-- Settles O41: the response is the bank's register; CSTATUS is the only one that is not a field itself. -/
theorem rdregReadsChannelRegister : Obligations.RdregReadsChannelRegister := by
  intro s c r b hc hb
  refine ⟨b.readReg r, exec_rdreg_chan r hc hb, ?_⟩
  cases r
  case cstatus => exact b.cstatus_toNat
  all_goals rfl

/-- Settles O42: the response is the global register; only GSTATUS and NCHAN are not fields themselves. -/
theorem rdregReadsGlobalRegister : Obligations.RdregReadsGlobalRegister := by
  intro s r hc
  refine ⟨s.readGlob r, exec_rdreg_glob r hc, ?_⟩
  cases r
  case gstatus => exact s.gstatus_toNat
  case nchan => exact State.readGlob_nchan_toNat hc
  all_goals rfl

end Sys2Proof.Machine

/-! The statements of spec/30_encoding.md on words: a command is decoded from its encoding (R96), a reserved opcode
(R90) and a nonzero unused field (R91) are faults, and so is an operand out of range (R87). -/

namespace Sys2Proof

/-! Decode, one equation per outcome of R93. -/

section
variable {n : Nat} {w : CmdWord} {o : Opcode} {i : Instr}

theorem decode_of_reservedOpcode (ho : Opcode.ofBits (Fields.ofWord w).op = none) :
    decode n w = .fault .illegalOpcode := by
  simp [decode, ho]

theorem decode_of_reservedNonzero (ho : Opcode.ofBits (Fields.ofWord w).op = some o)
    (hr : o.reservedNonzero (Fields.ofWord w) = true) : decode n w = .fault .reservedField := by
  simp [decode, ho, hr]

theorem decode_of_command (ho : Opcode.ofBits (Fields.ofWord w).op = some o)
    (hr : o.reservedNonzero (Fields.ofWord w) = false) (hi : o.command (Fields.ofWord w) = some i)
    (hw : i.wf n = true) : decode n w = .cmd i := by
  simp [decode, ho, hr, hi, (operandFault_eq_none_iff n i).2 hw]

end

/-! R96: the fields of a command are those its opcode reads it from. -/

@[simp] theorem Fields.ofWord_encode (i : Instr) : Fields.ofWord (encode i) = i.fields :=
  Fields.ofWord_toWord _

theorem Instr.fields_op (i : Instr) : i.fields.op = i.opcode.bits := by
  cases i <;> rfl

/-- A command leaves RSV and every field its opcode does not use at 0 (R83). -/
theorem Instr.reservedNonzero_fields (i : Instr) : i.opcode.reservedNonzero i.fields = false := by
  cases i <;> simp [Opcode.reservedNonzero, Instr.fields, Instr.opcode, Opcode.uses, Fields.isZero]

/-- What an opcode reads from the fields of its command is the command; a flag is read back from its bit. -/
theorem Instr.command_fields (i : Instr) : i.opcode.command i.fields = some i := by
  cases i
  case initDone b | map b _ | duty b | temp b _ => cases b <;> rfl
  case rdreg => simp [Opcode.command, Instr.fields, Instr.opcode]
  all_goals rfl

/-- Settles O1: the word of a command passes each check of the decoder, which reads the command back from its
fields. -/
theorem decodeOfEncode : Obligations.DecodeOfEncode := by
  intro n i hw
  apply decode_of_command (o := i.opcode)
  · rw [Fields.ofWord_encode, Instr.fields_op, Opcode.ofBits_bits]
  · rw [Fields.ofWord_encode, Instr.reservedNonzero_fields]
  · rw [Fields.ofWord_encode, Instr.command_fields]
  · exact hw

/-! R89, R90: the low four bits of a word are its opcode. -/

theorem Fields.ofWord_op_toNat (w : CmdWord) : (Fields.ofWord w).op.toNat = w.toNat % 16 := by
  simp [Fields.ofWord]

theorem Opcode.ofBits_reserved {op : BitVec 4} (h : op.toNat = 0 ∨ 0xB ≤ op.toNat) : Opcode.ofBits op = none := by
  revert op
  decide

/-- A word whose low four bits are an opcode's number has that opcode. -/
theorem Opcode.ofBits_ofWord {w : CmdWord} {o : Opcode} (h : w.toNat % 16 = o.bits.toNat) :
    Opcode.ofBits (Fields.ofWord w).op = some o := by
  have hop : (Fields.ofWord w).op = o.bits := BitVec.eq_of_toNat_eq ((Fields.ofWord_op_toNat w).trans h)
  rw [hop, Opcode.ofBits_bits]

/-! R91: RSV and the unused fields of an opcode, as a mask. -/

/-- All ones in RSV and in every field the opcode does not use, 0 elsewhere. -/
def Opcode.unusedOnes (o : Opcode) : Fields :=
  { op := 0
    v := if o.uses .v then 0 else BitVec.allOnes 1
    fl := if o.uses .fl then 0 else BitVec.allOnes 3
    ch := if o.uses .ch then 0 else BitVec.allOnes 8
    rs := if o.uses .rs then 0 else BitVec.allOnes 8
    rsv := BitVec.allOnes 8
    opnd := if o.uses .opnd then 0 else BitVec.allOnes 32 }

theorem Fields.ofWord_and (x y : CmdWord) :
    Fields.ofWord (x &&& y) =
      let f := Fields.ofWord x
      let g := Fields.ofWord y
      { op := f.op &&& g.op, v := f.v &&& g.v, fl := f.fl &&& g.fl, ch := f.ch &&& g.ch, rs := f.rs &&& g.rs,
        rsv := f.rsv &&& g.rsv, opnd := f.opnd &&& g.opnd } := by
  simp only [Fields.ofWord, BitVec.extractLsb'_and]

/-- A field that is 0 wherever it is unused has no bit in its part of the mask. -/
theorem and_unusedOnes_eq_zero {k : Nat} {x : BitVec k} {used : Bool} (h : used = false → x = 0) :
    x &&& (if used then 0 else BitVec.allOnes k) = 0 := by
  cases used with
  | false => simp [h rfl]
  | true => simp

/-- A word with no nonzero RSV or unused field has no bit in the mask. -/
theorem Opcode.and_unusedOnes {o : Opcode} {w : CmdWord} (h : o.reservedNonzero (Fields.ofWord w) = false) :
    w &&& o.unusedOnes.toWord = 0 := by
  obtain ⟨hrsv, hz⟩ := Opcode.unused_zero h
  have hop : (Fields.ofWord w).op &&& 0 = 0 := BitVec.and_zero
  have hones : (Fields.ofWord w).rsv &&& BitVec.allOnes 8 = 0 := by simp [hrsv]
  have hv := and_unusedOnes_eq_zero fun hu => of_decide_eq_true (hz .v hu)
  have hfl := and_unusedOnes_eq_zero fun hu => of_decide_eq_true (hz .fl hu)
  have hch := and_unusedOnes_eq_zero fun hu => of_decide_eq_true (hz .ch hu)
  have hrs := and_unusedOnes_eq_zero fun hu => of_decide_eq_true (hz .rs hu)
  have hopnd := and_unusedOnes_eq_zero fun hu => of_decide_eq_true (hz .opnd hu)
  rw [← Fields.toWord_ofWord (w &&& _), Fields.ofWord_and, Fields.ofWord_toWord]
  simp only [Opcode.unusedOnes, hop, hv, hfl, hch, hrs, hones, hopnd]
  rfl

/-! R87 with spec/20_memory.md R61: the cause of a command that is not well formed. -/

/-- The cause of an operand out of range: RDREG of a global register names a register wrongly, every other command a
bank. -/
def Instr.rangeCause : Instr → Cause
  | .rdreg _ (.glob _) => .badRegister
  | _ => .badChannel

theorem Instr.rangeCause_of_ne_glob {i : Instr} (h : ∀ c r, i ≠ .rdreg c (.glob r)) : i.rangeCause = .badChannel := by
  unfold Instr.rangeCause
  split
  · exact absurd rfl (h _ _)
  · rfl

theorem operandFault_of_not_wf {n : Nat} {i : Instr} (h : i.wf n = false) :
    operandFault n i = some i.rangeCause := by
  rcases i with _ | _ | _ | _ | _ | _ | _ | _ | _ | ⟨_, _ | _⟩
  case initDone | period | temp | log => cases h
  all_goals exact if_neg (of_decide_eq_false h)

end Sys2Proof

namespace Sys2Proof.Machine

/-! Execute of a word (R94), by what the word decodes to. -/

section
variable {s : State} {w : CmdWord}

theorem executeWord_of_cmd {i : Instr} (h : decode s.nChannels w = .cmd i) : executeWord w s = exec i s := by
  simp [executeWord, h]

theorem executeWord_of_fault {k : Cause} (h : decode s.nChannels w = .fault k) :
    executeWord w s = .next (s.raise k w) := by
  simp [executeWord, h, raiseFault]

end

/-- Settles O4: the opcode map has no opcode for such a word. -/
theorem reservedOpcodeFaults : Obligations.ReservedOpcodeFaults := by
  intro s w h
  rw [← Fields.ofWord_op_toNat] at h
  exact executeWord_of_fault (decode_of_reservedOpcode (Opcode.ofBits_reserved h))

/-- Settles O5: each row of the table is an opcode's number with the mask of what it does not use, and a word with a bit
there fails the field check. -/
theorem reservedFieldFaults : Obligations.ReservedFieldFaults := by
  intro s w op mask htable hop hmask
  have hrow : ∃ o : Opcode, op = o.bits.toNat ∧ BitVec.ofNat 64 mask = o.unusedOnes.toWord := by
    simp only [List.mem_cons, List.not_mem_nil, or_false, Prod.mk.injEq] at htable
    obtain ⟨rfl, rfl⟩ | ⟨rfl, rfl⟩ | ⟨rfl, rfl⟩ | ⟨rfl, rfl⟩ | ⟨rfl, rfl⟩ | ⟨rfl, rfl⟩ | ⟨rfl, rfl⟩ | ⟨rfl, rfl⟩ |
      ⟨rfl, rfl⟩ | ⟨rfl, rfl⟩ := htable
    · exact ⟨.initCh, rfl, rfl⟩
    · exact ⟨.initDone, rfl, rfl⟩
    · exact ⟨.edge, rfl, rfl⟩
    · exact ⟨.period, rfl, rfl⟩
    · exact ⟨.stall, rfl, rfl⟩
    · exact ⟨.map, rfl, rfl⟩
    · exact ⟨.duty, rfl, rfl⟩
    · exact ⟨.temp, rfl, rfl⟩
    · exact ⟨.log, rfl, rfl⟩
    · exact ⟨.rdreg, rfl, rfl⟩
  obtain ⟨o, rfl, hm⟩ := hrow
  have hr : o.reservedNonzero (Fields.ofWord w) = true := by
    by_contra hr
    exact hmask (hm ▸ Opcode.and_unusedOnes (Bool.eq_false_iff.2 hr))
  exact executeWord_of_fault (decode_of_reservedNonzero (Opcode.ofBits_ofWord hop) hr)

/-- Settles O7: the operand check comes before the state check and the hold, and its cause is `rangeCause`. -/
theorem operandOutOfRangeFaults : Obligations.OperandOutOfRangeFaults := by
  intro s i hc hw
  refine ⟨i.rangeCause.code, ?_, fun h => by rw [Instr.rangeCause_of_ne_glob h]; rfl, ?_⟩
  · rintro ⟨c, r, rfl⟩
    rfl
  · rw [exec_eq_execute]
    exact execute_operandFault hc (operandFault_of_not_wf hw)

/-! R94 at the machine's step. -/

theorem step_command {s : State} {a : Agent} {w : CmdWord} {rest : List Input} (hc : s.configOk = true)
    (hi : s.inputs = .command a w :: rest) (hh : s.heldFirst a = false) :
    step s = executeWord w (s.consume rest) := by
  simp [step, nextStep, hc, hi, hh]

/-- Settles O9: the step executes the word, on the same number of channels. -/
theorem stepRunsDecodedCommand : Obligations.StepRunsDecodedCommand := by
  intro s a w rest i hc hi hh hd
  rw [step_command hc hi hh]
  exact executeWord_of_cmd hd

end Sys2Proof.Machine

/-! The pseudo-commands of spec/30_encoding.md section 7: INIT_ALL (R99). -/

namespace Sys2Proof.Machine

theorem State.nChannels_le {s : State} (hc : s.configOk = true) : s.nChannels ≤ 256 := by
  obtain ⟨-, -, hmax, -⟩ := s.configOk_iff.1 hc
  exact hmax

/-- A channel index of a block fits the channel field (spec/00_scope.md R15). -/
theorem State.toNat_ofNat_of_lt {s : State} {c : Nat} (hc : s.configOk = true) (h : c < s.nChannels) :
    (BitVec.ofNat 8 c).toNat = c :=
  Nat.mod_eq_of_lt (h.trans_le (State.nChannels_le hc))

/-! Commands one after another. -/

section
variable {s t : State} {i : Instr} {is js : List Instr}

theorem runCommands_cons (h : exec i s = .next t) : runCommands (i :: is) s = runCommands is t := by
  simp [runCommands, h]

theorem runCommands_append (h : runCommands is s = .next t) : runCommands (is ++ js) s = runCommands js t := by
  induction is generalizing s with
  | nil =>
    cases h
    rfl
  | cons i is ih =>
    cases he : exec i s with
    | next u =>
      rw [runCommands_cons he] at h
      exact (runCommands_cons he).trans (ih h)
    | fault r => simp [runCommands, he] at h
    | refused r => simp [runCommands, he] at h

end

/-! R99. -/

/-- The bank with the results of its initialisation (spec/45_control_loop.md R131). -/
def Bank.initialised (fl : BitVec 3) (b : Bank) : Bank :=
  { b with tachoOk := fl.getLsbD 0, adcOk := fl.getLsbD 1, pwmOk := fl.getLsbD 2 }

theorem initChOp_banks (c : Chan) (fl : BitVec 3) (b : Bank) (s : State) :
    (initChOp c fl b s).banks = s.banks.set c.toNat (b.initialised fl) := rfl

theorem exec_initCh {s : State} {c : Chan} {b : Bank} (fl : BitVec 3) (hc : s.configOk = true)
    (hb : s.bank? c = some b) (hl : s.loopState = .init) :
    exec (.initCh c fl) s = .next ((initChOp c fl b s).respond 0) :=
  exec_of_effect hc (decide_eq_true (State.lt_of_bank? hb)) (decide_eq_true hl) (.inl rfl) ⟨b, hb, rfl⟩

theorem exec_initDone {s : State} (tv : Bool) (hc : s.configOk = true) (hl : s.loopState = .init) :
    exec (.initDone tv) s = .next ((initDoneOp tv s).respond 0) :=
  exec_of_effect hc rfl (decide_eq_true hl) (.inl rfl) rfl

/-- The banks with the first `k` initialised. -/
def initialisedUpTo (fl : BitVec 3) (k : Nat) (bs : List Bank) : List Bank :=
  (bs.take k).map (Bank.initialised fl) ++ bs.drop k

theorem getElem?_initialisedUpTo {fl : BitVec 3} {k : Nat} {bs : List Bank} {b : Bank} (h : bs[k]? = some b) :
    (initialisedUpTo fl k bs)[k]? = some b := by
  obtain ⟨hk, -⟩ := List.getElem?_eq_some_iff.1 h
  simp [initialisedUpTo, List.getElem?_append_right, hk.le, h]

theorem set_initialisedUpTo {fl : BitVec 3} {k : Nat} {bs : List Bank} {b : Bank} (h : bs[k]? = some b) :
    (initialisedUpTo fl k bs).set k (b.initialised fl) = initialisedUpTo fl (k + 1) bs := by
  obtain ⟨hk, rfl⟩ := List.getElem?_eq_some_iff.1 h
  have hl : ((bs.take k).map (Bank.initialised fl)).length = k := by simp [hk.le]
  rw [initialisedUpTo, initialisedUpTo, List.drop_eq_getElem_cons hk, List.set_append_right _ _ hl.le, hl,
    Nat.sub_self, List.set_cons_zero, ← List.take_append_getElem hk, List.map_append, List.append_assoc]
  rfl

/-- The INIT_CHs of the first `k` channels initialise their banks and leave the block in INIT. -/
theorem runCommands_initCh {s : State} (fl : BitVec 3) (hc : s.configOk = true) (hl : s.loopState = .init)
    {k : Nat} (hk : k ≤ s.nChannels) :
    ∃ t, runCommands ((List.range k).map fun c => .initCh (BitVec.ofNat 8 c) fl) s = .next t ∧
      t.config = s.config ∧ t.loopState = .init ∧ t.banks = initialisedUpTo fl k s.banks := by
  induction k with
  | zero => exact ⟨s, rfl, rfl, hl, by simp [initialisedUpTo]⟩
  | succ k ih =>
    obtain ⟨t, hrun, hcfg, hinit, hbanks⟩ := ih (by omega)
    have hct := (State.configOk_of_config hcfg).trans hc
    have hi : (BitVec.ofNat 8 k).toNat = k := State.toNat_ofNat_of_lt hc hk
    have hsb : s.banks[k]? = some s.banks[k] := List.getElem?_eq_getElem hk
    have hb : t.bank? (BitVec.ofNat 8 k) = some s.banks[k] := by
      rw [State.bank?, hi, hbanks, getElem?_initialisedUpTo hsb]
    refine ⟨(initChOp (BitVec.ofNat 8 k) fl s.banks[k] t).respond 0, ?_, ?_, hinit, ?_⟩
    · rw [List.range_succ, List.map_append, runCommands_append hrun]
      exact runCommands_cons (exec_initCh fl hct hb hinit)
    · have hset : (initChOp (BitVec.ofNat 8 k) fl s.banks[k] t).config = t.config := State.config_setBank hb rfl
      exact hset.trans hcfg
    · rw [State.respond_banks, initChOp_banks, hi, hbanks, set_initialisedUpTo hsb]

/-- Settles O19: by induction on the channels, then INIT_DONE. -/
theorem initAllInitialisesEveryChannel : Obligations.InitAllInitialisesEveryChannel := by
  intro s fl tv hc hl
  obtain ⟨t, hrun, hcfg, hinit, hbanks⟩ := runCommands_initCh fl hc hl le_rfl
  have hdone := exec_initDone tv ((State.configOk_of_config hcfg).trans hc) hinit
  refine ⟨(initDoneOp tv t).respond 0, ?_, rfl, rfl, ?_⟩
  · rw [initAll, runCommands_append hrun]
    exact runCommands_cons hdone
  · show t.banks = _
    rw [hbanks]
    simp [initialisedUpTo, State.nChannels, Bank.initialised]

end Sys2Proof.Machine

/-! The pseudo-command CYCLE (spec/30_encoding.md R100): the direct commands and the running cycle do the same, row by
row of R139. -/

namespace Sys2Proof.Machine

/-! The sequencer's rows (spec/45_control_loop.md R139), one equation per row: its operation run with the answer, or
skipped. -/

section
variable {s : State} {c : Chan} {b : Bank}

theorem sequencerStep_stall (hs : s.seq = .stall c) (hb : s.bank? c = some b) :
    sequencerStep s = .next ((stallOp c s.cycleNow b s).advance (.map c)) := by
  simp [sequencerStep, hs, withBank_some hb]

theorem sequencerStep_map_answered {v : Bool} {mv : Word} (hs : s.seq = .map c) (hb : s.bank? c = some b)
    (hok : b.adcOk = true) (ha : s.answer = some (.adc v mv)) :
    sequencerStep s = .next ((mapOp c v mv b s).advance (.duty c)) := by
  simp [sequencerStep, hs, withBank_some hb, hok, ha]

theorem sequencerStep_map_skipped (hs : s.seq = .map c) (hb : s.bank? c = some b) (hok : b.adcOk = false) :
    sequencerStep s = .next (s.advance (.duty c)) := by
  simp [sequencerStep, hs, withBank_some hb, hok]

theorem sequencerStep_duty_answered {rdy : Bool} (hs : s.seq = .duty c) (hb : s.bank? c = some b)
    (hok : b.pwmOk = true) (ha : s.answer = some (.pwm rdy)) :
    sequencerStep s = .next ((dutyOp c rdy b s).advance (s.afterDuty c)) := by
  simp [sequencerStep, hs, withBank_some hb, hok, ha]

theorem sequencerStep_duty_skipped (hs : s.seq = .duty c) (hb : s.bank? c = some b) (hok : b.pwmOk = false) :
    sequencerStep s = .next (s.advance (s.afterDuty c)) := by
  simp [sequencerStep, hs, withBank_some hb, hok]

theorem sequencerStep_temp_answered {tv : Bool} {x : Word} (hs : s.seq = .temp) (hok : s.tempOk = true)
    (ha : s.answer = some (.temp tv x)) : sequencerStep s = .next ((tempOp tv x s).advance .log) := by
  simp [sequencerStep, hs, hok, ha]

theorem sequencerStep_temp_skipped (hs : s.seq = .temp) (hok : s.tempOk = false) :
    sequencerStep s = .next (s.advance .log) := by
  simp [sequencerStep, hs, hok]

theorem sequencerStep_log (hs : s.seq = .log) : sequencerStep s = .next ((logOp s).advance .idle) := by
  simp [sequencerStep, hs]

/-! A subsystem that is not initialised makes its operation one that does nothing. -/

theorem mapOp_of_not_adcOk (v : Bool) (mv : Word) (h : b.adcOk = false) : mapOp c v mv b s = s := by
  simp [mapOp, h]

theorem dutyOp_of_not_pwmOk (rdy : Bool) (h : b.pwmOk = false) : dutyOp c rdy b s = s := by
  simp [dutyOp, h]

theorem tempOp_of_not_tempOk (tv : Bool) (x : Word) (h : s.tempOk = false) : tempOp tv x s = s := by
  simp [tempOp, h]

end

/-! Steps of the machine. -/

section
variable {s t : State} {rest : List Input}

theorem step_turn (hc : s.configOk = true) (hi : s.inputs = .turn :: rest) :
    step s = mainTurn (s.consume rest) := by
  simp [step, nextStep, hc, hi]

theorem step_answer {r : Answer} (hc : s.configOk = true) (hi : s.inputs = .answer r :: rest) :
    step s = .next ((s.consume rest).deliver r) := by
  simp [step, nextStep, hc, hi]

theorem mainTurn_of_cycle (hs : s.seq ≠ .idle) : mainTurn s = sequencerStep s := by
  unfold mainTurn
  split
  · exact absurd ‹_› hs
  · exact absurd ‹_› hs
  · rfl

theorem runSteps_succ {k : Nat} (h : step s = .next t) : runSteps (k + 1) s = runSteps k t := by
  simp [runSteps, h]

theorem runSteps_add {j k : Nat} (h : runSteps j s = .next t) : runSteps (j + k) s = runSteps k t := by
  induction j generalizing s with
  | zero =>
    cases h
    rw [Nat.zero_add]
  | succ j ih =>
    rw [Nat.succ_add]
    cases he : step s with
    | next u =>
      rw [runSteps_succ he] at h ⊢
      exact ih h
    | fault r => simp [runSteps, he] at h
    | refused r => simp [runSteps, he] at h

/-- A step does not read the response port (notes/assumptions/6.md). -/
theorem runSteps_respond (k : Nat) (s : State) (v : Word) :
    runSteps (k + 1) (s.respond v) = runSteps (k + 1) { s with resp := none } := rfl

end

/-! The state of a direct command as it is within a cycle. -/

/-- The state `s` of the direct commands, seen in a cycle that began at tick `now`: at position `q`, with answer `a` to
its request and `ins` still to come. -/
def State.inCycle (s : State) (now : Word) (q : SeqPos) (a : Option Answer) (ins : List Input) : State :=
  { s with cycleNow := now, seq := q, answer := a, inputs := ins, resp := none }

section
variable {s t : State} {now : Word} {q p : SeqPos} {a : Option Answer} {ins rest : List Input} {c : Chan} {b : Bank}

@[simp] theorem State.inCycle_params : (s.inCycle now q a ins).params = s.params := rfl
@[simp] theorem State.inCycle_tempOk : (s.inCycle now q a ins).tempOk = s.tempOk := rfl
@[simp] theorem State.inCycle_seq : (s.inCycle now q a ins).seq = q := rfl
@[simp] theorem State.inCycle_cycleNow : (s.inCycle now q a ins).cycleNow = now := rfl
@[simp] theorem State.inCycle_bank? : (s.inCycle now q a ins).bank? c = s.bank? c := rfl
@[simp] theorem State.inCycle_afterDuty : (s.inCycle now q a ins).afterDuty c = s.afterDuty c := rfl
@[simp] theorem State.inCycle_advance : (s.inCycle now q a ins).advance p = s.inCycle now p none ins := rfl

/-! Every operation commutes with the view. -/

@[simp] theorem stallOp_inCycle (x : Word) :
    stallOp c x b (s.inCycle now q a ins) = (stallOp c x b s).inCycle now q a ins := by
  unfold stallOp
  rw [State.inCycle_params]
  split <;> rfl

@[simp] theorem mapOp_inCycle (v : Bool) (mv : Word) :
    mapOp c v mv b (s.inCycle now q a ins) = (mapOp c v mv b s).inCycle now q a ins := by
  unfold mapOp
  split
  · split <;> rfl
  · rfl

@[simp] theorem dutyOp_inCycle (rdy : Bool) :
    dutyOp c rdy b (s.inCycle now q a ins) = (dutyOp c rdy b s).inCycle now q a ins := by
  unfold dutyOp
  split <;> rfl

@[simp] theorem tempOp_inCycle (tv : Bool) (x : Word) :
    tempOp tv x (s.inCycle now q a ins) = (tempOp tv x s).inCycle now q a ins := by
  unfold tempOp
  rw [State.inCycle_tempOk]
  split
  · split <;> rfl
  · rfl

@[simp] theorem logOp_inCycle : logOp (s.inCycle now q a ins) = (logOp s).inCycle now q a ins := rfl

/-- An answer within a cycle is kept if it is requested, and dropped if not (notes/assumptions/7.md). -/
theorem State.deliver_inCycle {r : Answer} {ok : Bool} (h : (s.inCycle now q none ins).requests r = ok) :
    (s.inCycle now q none ins).deliver r = s.inCycle now q (if ok then some r else none) ins := by
  unfold State.deliver
  rw [h]
  cases ok <;> rfl

/-! The main agent's turn, and an answer followed by a turn. -/

theorem step_inCycle_turn (hc : s.configOk = true) (hq : q ≠ .idle) :
    step (s.inCycle now q a (.turn :: rest)) = sequencerStep (s.inCycle now q a rest) :=
  Eq.trans (step_turn hc rfl) (mainTurn_of_cycle hq)

theorem runSteps_inCycle_turn (hc : s.configOk = true) (hq : q ≠ .idle)
    (h : sequencerStep (s.inCycle now q a rest) = .next t) :
    runSteps 1 (s.inCycle now q a (.turn :: rest)) = .next t :=
  runSteps_succ ((step_inCycle_turn hc hq).trans h)

theorem runSteps_inCycle_answer_turn {r : Answer} {ok : Bool} (hc : s.configOk = true) (hq : q ≠ .idle)
    (hreq : (s.inCycle now q none (.turn :: rest)).requests r = ok)
    (h : sequencerStep (s.inCycle now q (if ok then some r else none) rest) = .next t) :
    runSteps 2 (s.inCycle now q none (.answer r :: .turn :: rest)) = .next t := by
  have hans : step (s.inCycle now q none (.answer r :: .turn :: rest)) =
      .next ((s.inCycle now q none (.turn :: rest)).deliver r) := step_answer hc rfl
  rw [runSteps_succ hans, State.deliver_inCycle hreq]
  exact runSteps_inCycle_turn hc hq h

/-! Each row of the table within a cycle: the operation of the direct command. -/

theorem runSteps_inCycle_stall (hc : s.configOk = true) (hb : s.bank? c = some b) :
    runSteps 1 (s.inCycle now (.stall c) none (.turn :: rest)) =
      .next ((stallOp c now b s).inCycle now (.map c) none rest) :=
  runSteps_inCycle_turn hc (by simp) (Eq.trans (sequencerStep_stall rfl hb) (by simp))

theorem runSteps_inCycle_map (v : Bool) (mv : Word) (hc : s.configOk = true) (hb : s.bank? c = some b) :
    runSteps 2 (s.inCycle now (.map c) none (.answer (.adc v mv) :: .turn :: rest)) =
      .next ((mapOp c v mv b s).inCycle now (.duty c) none rest) := by
  refine runSteps_inCycle_answer_turn hc (by simp) (ok := b.adcOk) (by simp [State.requests, hb]) ?_
  cases hok : b.adcOk with
  | true => exact Eq.trans (sequencerStep_map_answered rfl hb hok rfl) (by simp)
  | false =>
    rw [mapOp_of_not_adcOk v mv hok]
    exact sequencerStep_map_skipped rfl hb hok

theorem runSteps_inCycle_duty (rdy : Bool) (hc : s.configOk = true) (hb : s.bank? c = some b) :
    runSteps 2 (s.inCycle now (.duty c) none (.answer (.pwm rdy) :: .turn :: rest)) =
      .next ((dutyOp c rdy b s).inCycle now (s.afterDuty c) none rest) := by
  refine runSteps_inCycle_answer_turn hc (by simp) (ok := b.pwmOk) (by simp [State.requests, hb]) ?_
  cases hok : b.pwmOk with
  | true => exact Eq.trans (sequencerStep_duty_answered rfl hb hok rfl) (by simp)
  | false =>
    rw [dutyOp_of_not_pwmOk rdy hok]
    exact sequencerStep_duty_skipped rfl hb hok

theorem runSteps_inCycle_temp (tv : Bool) (x : Word) (hc : s.configOk = true) :
    runSteps 2 (s.inCycle now .temp none (.answer (.temp tv x) :: .turn :: rest)) =
      .next ((tempOp tv x s).inCycle now .log none rest) := by
  refine runSteps_inCycle_answer_turn hc (by simp) (ok := s.tempOk) rfl ?_
  cases hok : s.tempOk with
  | true => exact Eq.trans (sequencerStep_temp_answered rfl hok rfl) (by simp)
  | false =>
    rw [tempOp_of_not_tempOk tv x hok]
    exact sequencerStep_temp_skipped rfl hok

theorem runSteps_inCycle_log (hc : s.configOk = true) :
    runSteps 1 (s.inCycle now .log none (.turn :: rest)) = .next ((logOp s).inCycle now .idle none rest) :=
  runSteps_inCycle_turn hc (by simp) (Eq.trans (sequencerStep_log rfl) (by simp))

end

/-! The commands that only RUNNING at IDLE accepts (spec/45_control_loop.md R134, R138). -/

section
variable {s : State} {c : Chan} {b : Bank}

theorem exec_period (now : Word) (hc : s.configOk = true) (hl : s.loopState = .running) (hs : s.seq = .idle) :
    exec (.period now) s = .next (State.respond { s with cycleNow := now, seq := .stall 0 } 0) :=
  exec_of_effect hc rfl (decide_eq_true hl) (.inr hs) rfl

theorem exec_map (v : Bool) (mv : Word) (hc : s.configOk = true) (hb : s.bank? c = some b)
    (hl : s.loopState = .running) (hs : s.seq = .idle) :
    exec (.map c v mv) s = .next ((mapOp c v mv b s).respond 0) :=
  exec_of_effect hc (decide_eq_true (State.lt_of_bank? hb)) (decide_eq_true hl) (.inr hs) ⟨b, hb, rfl⟩

theorem exec_duty (rdy : Bool) (hc : s.configOk = true) (hb : s.bank? c = some b) (hl : s.loopState = .running)
    (hs : s.seq = .idle) : exec (.duty c rdy) s = .next ((dutyOp c rdy b s).respond b.dutyResponse) :=
  exec_of_effect hc (decide_eq_true (State.lt_of_bank? hb)) (decide_eq_true hl) (.inr hs) ⟨b, hb, rfl⟩

theorem exec_temp (tv : Bool) (x : Word) (hc : s.configOk = true) (hl : s.loopState = .running) (hs : s.seq = .idle) :
    exec (.temp tv x) s = .next ((tempOp tv x s).respond 0) :=
  exec_of_effect hc rfl (decide_eq_true hl) (.inr hs) rfl

theorem exec_log (hc : s.configOk = true) (hl : s.loopState = .running) (hs : s.seq = .idle) :
    exec .log s = .next ((logOp s).respond 0) :=
  exec_of_effect hc rfl (decide_eq_true hl) (.inr hs) rfl

end

/-! The commands and the cycle side by side. `CycleDoes` composes, so the expansion of CYCLE and the script of a whole
cycle are compared piece by piece. -/

/-- The state between two direct commands of a cycle's expansion. -/
structure Ready (s : State) : Prop where
  configOk : s.configOk = true
  running : s.loopState = .running
  idle : s.seq = .idle

/-- From `s`, the commands `is` run, they keep what the micro-operations keep, and in a cycle at position `q` the script
`ins` leaves the same state at position `p`. -/
def CycleDoes (now : Word) (q p : SeqPos) (is : List Instr) (ins : List Input) (s : State) : Prop :=
  ∃ t, runCommands is s = .next t ∧ Keeps s t ∧
    ∀ rest, runSteps ins.length (s.inCycle now q none (ins ++ rest)) = .next (t.inCycle now p none rest)

section
variable {s t : State} {now : Word} {q p r : SeqPos} {is js : List Instr} {ins more : List Input} {c : Chan}

theorem Keeps.nChannels (k : Keeps s t) : t.nChannels = s.nChannels :=
  State.nChannels_of_config k.config

theorem Ready.keeps (h : Ready s) (k : Keeps s t) : Ready t :=
  ⟨(State.configOk_of_config k.config).trans h.configOk, k.loopState.trans h.running, k.seq.trans h.idle⟩

theorem CycleDoes.nil (now : Word) (q : SeqPos) (s : State) : CycleDoes now q q [] [] s :=
  ⟨s, rfl, .refl s, fun _ => rfl⟩

theorem CycleDoes.append (h : CycleDoes now q p is ins s) (k : ∀ t, Keeps s t → CycleDoes now p r js more t) :
    CycleDoes now q r (is ++ js) (ins ++ more) s := by
  obtain ⟨t, hrun, hk, hcyc⟩ := h
  obtain ⟨u, hrun', hk', hcyc'⟩ := k t hk
  refine ⟨u, (runCommands_append hrun).trans hrun', hk.trans hk', fun rest => ?_⟩
  rw [List.append_assoc, List.length_append, runSteps_add (hcyc _), hcyc']

/-- One command that has its own effect, and the row of the table that runs the same operation. -/
theorem CycleDoes.single {i : Instr} {v : Word} (hx : exec i s = .next (t.respond v)) (k : Keeps s t)
    (h : ∀ rest, runSteps ins.length (s.inCycle now q none (ins ++ rest)) = .next (t.inCycle now p none rest)) :
    CycleDoes now q p [i] ins s :=
  ⟨t.respond v, runCommands_cons hx, k.respond v, h⟩

/-! Each micro-operation. -/

theorem cycleDoes_stall (h : Ready s) (hlt : c.toNat < s.nChannels) :
    CycleDoes now (.stall c) (.map c) [.stall c now] [.turn] s := by
  obtain ⟨b, hb⟩ := State.bank?_of_lt hlt
  exact .single (exec_stall now h.configOk hb h.running h.idle) (stallOp_keeps now hb)
    fun _ => runSteps_inCycle_stall h.configOk hb

theorem cycleDoes_map (v : Bool) (mv : Word) (h : Ready s) (hlt : c.toNat < s.nChannels) :
    CycleDoes now (.map c) (.duty c) [.map c v mv] [.answer (.adc v mv), .turn] s := by
  obtain ⟨b, hb⟩ := State.bank?_of_lt hlt
  exact .single (exec_map v mv h.configOk hb h.running h.idle) (mapOp_keeps v mv h.configOk hb)
    fun _ => runSteps_inCycle_map v mv h.configOk hb

theorem cycleDoes_duty (rdy : Bool) (h : Ready s) (hlt : c.toNat < s.nChannels) :
    CycleDoes now (.duty c) (s.afterDuty c) [.duty c rdy] [.answer (.pwm rdy), .turn] s := by
  obtain ⟨b, hb⟩ := State.bank?_of_lt hlt
  exact .single (exec_duty rdy h.configOk hb h.running h.idle) (dutyOp_keeps rdy)
    fun _ => runSteps_inCycle_duty rdy h.configOk hb

theorem cycleDoes_temp (tv : Bool) (x : Word) (h : Ready s) :
    CycleDoes now .temp .log [.temp tv x] [.answer (.temp tv x), .turn] s :=
  .single (exec_temp tv x h.configOk h.running h.idle) (tempOp_keeps tv x)
    fun _ => runSteps_inCycle_temp tv x h.configOk

theorem cycleDoes_log (h : Ready s) : CycleDoes now .log .idle [.log] [.turn] s :=
  .single (exec_log h.configOk h.running h.idle) logOp_keeps fun _ => runSteps_inCycle_log h.configOk

/-! The channels in order. -/

theorem cycleDoes_channel (d : Draw) (h : Ready s) (hlt : c.toNat < s.nChannels) :
    CycleDoes now (.stall c) (s.afterDuty c) [.stall c now, .map c d.v d.mv, .duty c d.rdy]
      [.turn, .answer (.adc d.v d.mv), .turn, .answer (.pwm d.rdy), .turn] s := by
  refine (cycleDoes_stall h hlt).append fun t ht => ?_
  refine (cycleDoes_map d.v d.mv (h.keeps ht) (ht.nChannels ▸ hlt)).append fun u hu => ?_
  have hk := ht.trans hu
  have hafter : u.afterDuty c = s.afterDuty c := by simp only [State.afterDuty, hk.nChannels]
  exact hafter ▸ cycleDoes_duty d.rdy (h.keeps hk) (hk.nChannels ▸ hlt)

/-- The position at which channel `c` begins, or, past the last, the temperature. -/
def channelPos (n c : Nat) : SeqPos :=
  if c < n then .stall (BitVec.ofNat 8 c) else .temp

theorem State.afterDuty_ofNat {i : Nat} (hc : s.configOk = true) (h : i < s.nChannels) :
    s.afterDuty (BitVec.ofNat 8 i) = channelPos s.nChannels (i + 1) := by
  have hi := State.toNat_ofNat_of_lt hc h
  simp only [State.afterDuty, channelPos, hi, BitVec.ofNat_add]
  rfl

theorem cycleDoes_channels (ds : List Draw) {i : Nat} (h : Ready s) (hi : i + ds.length = s.nChannels) :
    CycleDoes now (channelPos s.nChannels i) .temp (cycleChannels now i ds) (channelScript ds) s := by
  induction ds generalizing s i with
  | nil =>
    have hpos : channelPos s.nChannels i = .temp := if_neg (by simp at hi; omega)
    exact hpos ▸ .nil now .temp s
  | cons d ds ih =>
    rw [List.length_cons] at hi
    have hlt : i < s.nChannels := by omega
    have hchan := cycleDoes_channel (now := now) d h ((State.toNat_ofNat_of_lt h.configOk hlt).symm ▸ hlt)
    rw [State.afterDuty_ofNat h.configOk hlt] at hchan
    have hpos : channelPos s.nChannels i = .stall (BitVec.ofNat 8 i) := if_pos hlt
    rw [hpos]
    refine hchan.append fun t ht => ?_
    have hn := ht.nChannels
    exact hn ▸ ih (h.keeps ht) (by omega)

theorem cycleDoes_cycle (ds : List Draw) (tv : Bool) (x : Word) (h : Ready s) (hd : ds.length = s.nChannels) :
    CycleDoes now (.stall 0) .idle (cycle now ds tv x) (cycleScript ds tv x) s := by
  obtain ⟨-, hpos, -⟩ := s.configOk_iff.1 h.configOk
  have hstart : channelPos s.nChannels 0 = .stall 0 := if_pos hpos
  rw [← hstart]
  refine (cycleDoes_channels ds h (by omega)).append fun t ht => ?_
  exact (cycleDoes_temp tv x (h.keeps ht)).append fun u hu => cycleDoes_log (h.keeps (ht.trans hu))

end

/-- What PERIOD starts is the state in the cycle, but for PERIOD's response, which no step reads. -/
theorem runSteps_of_period {s : State} {now : Word} {ins : List Input} {k : Nat} (ha : s.answer = none) :
    runSteps (k + 1) (State.respond { s with inputs := ins, cycleNow := now, seq := .stall 0 } 0) =
      runSteps (k + 1) (s.inCycle now (.stall 0) none ins) := by
  rw [runSteps_respond, State.inCycle, ← ha]

theorem cycleScript_length (ds : List Draw) (tv : Bool) (x : Word) :
    (cycleScript ds tv x).length = (channelScript ds).length + 2 + 1 := by
  simp [cycleScript]

/-- Settles O48: channel by channel and row by row, the cycle does what the direct commands do. -/
theorem cycleCommandsEqualPeriodCycle : Obligations.CycleCommandsEqualPeriodCycle := by
  intro s now ds tv x hc hl hs ha _ hd hi
  have hp := exec_period (s := { s with inputs := cycleScript ds tv x }) now hc hl hs
  obtain ⟨v, hrun, hk, hcyc⟩ := cycleDoes_cycle (now := now) ds tv x ⟨hc, hl, hs⟩ hd
  refine ⟨_, v.inCycle now .idle none [], v, hp, ?_, hrun, ?_⟩
  · have hcyc := hcyc []
    rw [List.append_nil, cycleScript_length] at hcyc
    rw [cycleScript_length, ← hcyc]
    exact runSteps_of_period ha
  · -- at its end the view differs from `v` in the tick and the response port only
    rw [State.inCycle, ← hk.seq.trans hs, ← hk.answer.trans ha, ← hk.inputs.trans hi]

end Sys2Proof.Machine

/-! The statements of spec/41_tachometer.md: what an edge does in each case of its bank (R106 to R110), and what two
edges leave (R111). -/

namespace Sys2Proof.Machine

/-! The cases of a recorded edge. -/

section
variable {b : Bank} (p : Params) (now : Word)

/-- R108: an edge a positive interval after the last is measured. -/
theorem Bank.recordEdge_of_interval {d : Nat} (he : b.edgeSeen = true) (hd : 0 < d)
    (ht : tickDiff now b.lastEdgeTime = d) :
    b.recordEdge p now = { b with measuredRpm := rpmOfInterval p d, lastEdgeTime := now, edgeSeen := true } := by
  simp [Bank.recordEdge, he, ht, hd]

/-- R107, R109: the first edge, or one with no positive interval, is recorded but not measured. -/
theorem Bank.recordEdge_of_noInterval (h : b.edgeSeen = true → tickDiff now b.lastEdgeTime ≤ 0) :
    b.recordEdge p now = { b with lastEdgeTime := now, edgeSeen := true } := by
  have hno : ¬(b.edgeSeen = true ∧ 0 < tickDiff now b.lastEdgeTime) := fun ⟨he, hpos⟩ => (h he).not_gt hpos
  simp only [Bank.recordEdge, if_neg hno]

end

/-- R105: with an initialised tachometer EDGE records the edge in its bank. -/
theorem exec_edge_of_tachoOk {s : State} {c : Chan} {b : Bank} (now : Word) (hc : s.configOk = true)
    (hb : s.bank? c = some b) (ht : b.tachoOk = true) :
    exec (.edge c now) s = .next ((s.setBank c (b.recordEdge s.params now)).respond 0) := by
  rw [exec_edge now hc hb, edgeOp, if_pos ht]

/-- Settles O20: the edge of a channel without an initialised tachometer changes nothing but the response. -/
theorem edgeWithoutTachoHasNoEffect : Obligations.EdgeWithoutTachoHasNoEffect := by
  intro s c now b hc hb ht
  have hop : edgeOp c now b s = s := if_neg (Bool.eq_false_iff.1 ht)
  rw [exec_edge now hc hb, hop]
  rfl

/-- Settles O21: the first edge has no interval to measure. -/
theorem firstEdgeRecordsTimeOnly : Obligations.FirstEdgeRecordsTimeOnly := by
  intro s c now b hc hb ht he
  rw [exec_edge_of_tachoOk now hc hb ht, Bank.recordEdge_of_noInterval _ _ (by simp [he])]
  rfl

/-- Settles O22: below `2^31` the signed difference is the interval, and the quotient fits its field. -/
theorem edgeMeasuresPositiveInterval : Obligations.EdgeMeasuresPositiveInterval := by
  rintro s c _ b d hc hb ht he hpos hlt rfl
  refine ⟨rpmOfInterval s.params d, rpmOfInterval_toNat s.params d, ?_⟩
  rw [exec_edge_of_tachoOk _ hc hb ht, Bank.recordEdge_of_interval _ _ he hpos (tickDiff_add _ hlt)]
  rfl

/-- Settles O24: behind the last edge by up to `2^31` the signed difference is not positive. -/
theorem edgeRejectsOtherInterval : Obligations.EdgeRejectsOtherInterval := by
  rintro s c _ b d hc hb ht _ hle rfl
  have hno : tickDiff (b.lastEdgeTime - BitVec.ofNat 32 d) b.lastEdgeTime ≤ 0 := by
    rw [tickDiff_sub _ hle]
    omega
  rw [exec_edge_of_tachoOk _ hc hb ht, Bank.recordEdge_of_noInterval _ _ fun _ => hno]
  rfl

/-- Settles O23: whatever the first edge measures, it leaves its tick, so the second measures `d` (O22), and dividing
twice is dividing by the product. -/
theorem twoEdgesGiveTheRpm : Obligations.TwoEdgesGiveTheRpm := by
  intro s c x b d hc hb ht hpos hlt
  have h1 := exec_edge_of_tachoOk x hc hb ht
  set b₁ := b.recordEdge s.params x
  set s₁ := (s.setBank c b₁).respond 0
  have hcfg : s₁.config = s.config := State.config_setBank (b' := b₁) hb rfl
  have hc₁ := (State.configOk_of_config hcfg).trans hc
  have hb₁ : s₁.bank? c = some b₁ := State.bank?_setBank_same b₁ (State.lt_of_bank? hb)
  obtain ⟨rpm, hrpm, h2⟩ := edgeMeasuresPositiveInterval s₁ c _ b₁ d hc₁ hb₁ ht rfl hpos hlt rfl
  exact ⟨_, _, (runCommands_cons h1).trans (runCommands_cons h2), State.bank?_setBank_same _ (State.lt_of_bank? hb₁),
    hrpm.trans (Nat.div_div_eq_div_mul _ _ _)⟩

end Sys2Proof.Machine

/-! The statements of spec/42_stall.md: when STALL detects a stall (R113, R114), which ticks those are (R115, R116), and
that a stall is reported once (R117). -/

namespace Sys2Proof.Machine

/-- R113: the comparison is of the signed tick difference. -/
theorem Bank.stalled_iff (p : Params) (now : Word) (b : Bank) :
    b.stalled p now = true ↔
      b.measuredRpm ≠ 0 ∧ (p.stallTimeoutMs.toNat : Int) < tickDiff now b.lastEdgeTime := by
  simp [Bank.stalled]

section
variable {s t : State} {c : Chan} {b : Bank} {now : Word}

/-- Detecting a stall is the only way STALL appends to the history. -/
theorem stallOp_of_hist (h : (stallOp c now b s).hist = s.hist ++ [.stall c]) :
    stallOp c now b s = (s.setBank c { b with measuredRpm := 0, stallEvt := true }).emit [.stall c] := by
  rcases stallOp_eq (s := s) (c := c) (b := b) now with hop | hop
  · rw [hop] at h
    simp at h
  · exact hop

/-- A STALL at IDLE that appends EV_STALL(c) ran its own rule and detected a stall: a rejected one appends EV_FAULT. -/
theorem exec_stall_detected (hs : s.seq = .idle) (h : exec (.stall c now) s = .next t)
    (hh : t.hist = s.hist ++ [.stall c]) :
    ∃ b, s.bank? c = some b ∧
      t = ((s.setBank c { b with measuredRpm := 0, stallEvt := true }).emit [.stall c]).respond 0 := by
  obtain ⟨-, ⟨k, rfl⟩ | ⟨-, -, -, hbusy, -⟩ | ⟨-, -, -, b, hb, rfl⟩⟩ := exec_next_cases h
  · simp at hh
  · exact absurd hs hbusy
  · exact ⟨b, hb, by rw [stallOp_of_hist hh]⟩

end

/-- Settles O28: the model's test is the statement's, and its two outcomes are the statement's two states. -/
theorem stallDetection : Obligations.StallDetection := by
  intro s c now b hc hb hl hs
  rw [exec_stall now hc hb hl hs, stallOp, apply_ite (State.respond · 0), apply_ite Host.Outcome.next]
  exact if_congr (Bank.stalled_iff s.params now b) rfl rfl

/-- Settles O29: after the edge the signed difference is `d`, for the timeout is below `2^31` (R15); behind it, `-d`. -/
theorem stallByElapsedTime : Obligations.StallByElapsedTime := by
  intro s c now b d hc hb hl hs hm
  obtain ⟨hwf, -⟩ := s.configOk_iff.1 hc
  obtain ⟨-, -, htimeout⟩ := Params.wf_bounds hwf
  have hexec := stallDetection s c now b hc hb hl hs
  have hnot {x : Int} (hx : tickDiff now b.lastEdgeTime = x) (hle : x ≤ s.params.stallTimeoutMs.toNat) :
      exec (.stall c now) s = .next { s with resp := some 0 } :=
    hexec.trans (if_neg fun ⟨_, hlt⟩ => hle.not_gt (hx ▸ hlt))
  refine ⟨?_, ?_, ?_⟩
  · rintro hlt hd rfl
    have hx : tickDiff _ b.lastEdgeTime = d := tickDiff_add b.lastEdgeTime hd
    exact hexec.trans (if_pos ⟨hm, lt_of_lt_of_eq (Int.ofNat_lt.2 hlt) hx.symm⟩)
  · rintro hle rfl
    exact hnot (tickDiff_add b.lastEdgeTime (by omega)) (Int.ofNat_le.2 hle)
  · rintro hd rfl
    exact hnot (tickDiff_sub b.lastEdgeTime hd) (by omega)

/-- Settles O30: the detected stall left a reading of 0, which is no stall at any tick. -/
theorem stallReportedOnce : Obligations.StallReportedOnce := by
  intro s t c now later hs hl h hh
  obtain ⟨b, hb, rfl⟩ := exec_stall_detected hs h hh
  obtain ⟨hc, -⟩ := exec_next_cases h
  have hcfg : (s.setBank c { b with measuredRpm := 0, stallEvt := true }).config = s.config :=
    State.config_setBank hb rfl
  have hb' := State.bank?_setBank_same { b with measuredRpm := 0, stallEvt := true } (State.lt_of_bank? hb)
  exact exec_stall_of_measuredRpm_zero later ((State.configOk_of_config hcfg).trans hc) hb' hl hs rfl

end Sys2Proof.Machine

/-! The statements of spec/43_target.md: the target of a valid sample (R121, R122) and its end points (R124), and what
MAP does without a sample (R119, R120). -/

namespace Sys2Proof.Machine

/-- R15: the configuration check covers every bank. -/
theorem State.conf_wf_of_bank? {s : State} {c : Chan} {b : Bank} (hc : s.configOk = true) (hb : s.bank? c = some b) :
    b.conf.wf = true := by
  obtain ⟨-, -, -, hbanks⟩ := s.configOk_iff.1 hc
  exact hbanks b (State.mem_of_bank? hb)

/-! The value written. -/

/-- R121: the clamped quotient is at most RPM_MAX, so it fits its field. -/
theorem targetOfSample_toNat (k : ChanConfig) (mv : Word) :
    (targetOfSample k mv).toNat =
      min (max (k.rpmMax.toNat * mv.toNat / k.fullScaleMv.toNat) k.rpmMin.toNat) k.rpmMax.toNat := by
  rw [targetOfSample, BitVec.toNat_ofNat]
  exact Nat.mod_eq_of_lt ((Nat.min_le_right _ _).trans_lt k.rpmMax.isLt)

/-- R124: 0 mV is a quotient of 0, which the lower clamp raises. -/
theorem targetOfSample_zero {k : ChanConfig} (h : k.wf = true) : targetOfSample k 0 = k.rpmMin := by
  obtain ⟨-, hle, -⟩ := ChanConfig.wf_bounds h
  apply BitVec.eq_of_toNat_eq
  simp [targetOfSample_toNat, hle]

/-- R124: from full scale on, the quotient is at least RPM_MAX, which the upper clamp makes it. -/
theorem targetOfSample_of_fullScale {k : ChanConfig} {mv : Word} (h : k.wf = true)
    (hmv : k.fullScaleMv.toNat ≤ mv.toNat) : targetOfSample k mv = k.rpmMax := by
  obtain ⟨-, -, hpos⟩ := ChanConfig.wf_bounds h
  have hq : k.rpmMax.toNat ≤ k.rpmMax.toNat * mv.toNat / k.fullScaleMv.toNat :=
    (Nat.le_div_iff_mul_le hpos).2 (Nat.mul_le_mul_left _ hmv)
  apply BitVec.eq_of_toNat_eq
  rw [targetOfSample_toNat]
  exact Nat.min_eq_right (hq.trans (Nat.le_max_left _ _))

/-- R121: in RUNNING at IDLE, with an initialised ADC, a valid sample writes its target in its bank. -/
theorem exec_map_of_sample {s : State} {c : Chan} {b : Bank} (mv : Word) (hc : s.configOk = true)
    (hb : s.bank? c = some b) (hl : s.loopState = .running) (hs : s.seq = .idle) (hok : b.adcOk = true) :
    exec (.map c true mv) s =
      .next ((s.setBank c { b with targetRpm := targetOfSample b.conf mv }).respond 0) := by
  rw [exec_map true mv hc hb hl hs, mapOp, if_pos hok, if_pos rfl]

/-- Settles O32: with RPM_MIN at most RPM_MAX (R15), the model's clamp is the statement's. -/
theorem mapWritesClampedTarget : Obligations.MapWritesClampedTarget := by
  intro s c mv b hc hb hl hs hok
  refine ⟨targetOfSample b.conf mv, ?_, exec_map_of_sample mv hc hb hl hs hok⟩
  obtain ⟨-, hle, -⟩ := ChanConfig.wf_bounds (State.conf_wf_of_bank? hc hb)
  rw [targetOfSample_toNat]
  dsimp only
  split_ifs <;> omega

/-- Settles O33: the written target at the two ends of the scale. -/
theorem mapEndpoints : Obligations.MapEndpoints := by
  intro s c mv b hc hb hl hs hok
  have hw := State.conf_wf_of_bank? hc hb
  have hexec := exec_map_of_sample mv hc hb hl hs hok
  refine ⟨?_, fun hmv => ?_⟩
  · rintro rfl
    rwa [targetOfSample_zero hw] at hexec
  · rwa [targetOfSample_of_fullScale hw hmv] at hexec

/-- Settles O34: MAP's two ways to write no target, a skipped subsystem and a failed sample. -/
theorem mapWithoutSampleKeepsTarget : Obligations.MapWithoutSampleKeepsTarget := by
  intro s c v mv b hc hb hl hs
  have hexec := exec_map v mv hc hb hl hs
  refine ⟨fun hno => ?_, ?_⟩
  · rwa [mapOp_of_not_adcOk v mv hno] at hexec
  · rintro hok rfl
    rwa [mapOp, if_pos hok, if_neg Bool.false_ne_true] at hexec

end Sys2Proof.Machine

/-! The statements of spec/44_duty.md: the pulse length DUTY commits and responds (R126 to R128), and that no EDGE,
STALL or DUTY changes it (R129). -/

namespace Sys2Proof.Machine

theorem Bank.dutyResponse_of_pwmOk {b : Bank} (h : b.pwmOk = true) : b.dutyResponse = b.pulse :=
  if_pos h

theorem Bank.dutyResponse_of_not_pwmOk {b : Bank} (h : b.pwmOk = false) : b.dutyResponse = 0 :=
  if_neg (Bool.eq_false_iff.1 h)

/-- Settles O35: the committed pulse length is the exact quotient, which fits its field. -/
theorem dutyCommitsPulse : Obligations.DutyCommitsPulse := by
  intro s c rdy b hc hb hl hs hok ht
  obtain ⟨hp, hle⟩ := Bank.pulse_toNat ht
  refine ⟨b.pulse, hp, hle, ?_⟩
  rw [exec_duty rdy hc hb hl hs, dutyOp, if_pos hok, Bank.dutyResponse_of_pwmOk hok]
  rfl

/-- Settles O36: a skipped output makes DUTY's operation one that does nothing, with the response 0. -/
theorem dutySkippedWithoutPwm : Obligations.DutySkippedWithoutPwm := by
  intro s c rdy b hc hb hl hs hno
  rw [exec_duty rdy hc hb hl hs, dutyOp_of_not_pwmOk rdy hno, Bank.dutyResponse_of_not_pwmOk hno]
  rfl

/-! R129: at IDLE the response of DUTY is a function of the loop state and the channel's bank alone. -/

/-- What DUTY of channel `c` responds at IDLE: 0 when it is rejected, otherwise the bank's response. -/
def State.dutyResponse (s : State) (c : Chan) : Word :=
  match s.loopState with
  | .init => 0
  | .running => ((s.bank? c).map Bank.dutyResponse).getD 0

theorem exec_duty_resp {s t : State} {c : Chan} {rdy : Bool} (hs : s.seq = .idle)
    (h : exec (.duty c rdy) s = .next t) : t.resp = some (s.dutyResponse c) := by
  obtain ⟨hc, -⟩ := exec_next_cases h
  unfold State.dutyResponse
  cases hb : s.bank? c with
  | none =>
    have hw : (Instr.duty c rdy).wf s.nChannels = false :=
      decide_eq_false (Nat.not_lt.2 (List.getElem?_eq_none_iff.1 hb))
    rw [exec_eq_execute, execute_operandFault hc (operandFault_of_not_wf hw)] at h
    cases h
    cases s.loopState <;> rfl
  | some b =>
    cases hl : s.loopState with
    | init =>
      have hw : (Instr.duty c rdy).wf s.nChannels = true := decide_eq_true (State.lt_of_bank? hb)
      have hi : legalIn (.duty c rdy) s.loopState = false := by rw [hl]; rfl
      rw [exec_eq_execute, execute_wrongState hc hw hi] at h
      cases h
      rfl
    | running =>
      rw [exec_duty rdy hc hb hl hs] at h
      cases h
      rfl

/-- What DUTY's response depends on is kept: the position, the loop state and each bank's response. -/
structure KeepsDuty (s t : State) : Prop where
  seq : t.seq = s.seq
  loopState : t.loopState = s.loopState
  responses : t.banks.map Bank.dutyResponse = s.banks.map Bank.dutyResponse

section
variable {s t u : State} {i : Instr} {c : Chan} {b b' : Bank}

theorem KeepsDuty.refl (s : State) : KeepsDuty s s :=
  ⟨rfl, rfl, rfl⟩

theorem KeepsDuty.trans (h : KeepsDuty s t) (k : KeepsDuty t u) : KeepsDuty s u :=
  ⟨k.seq.trans h.seq, k.loopState.trans h.loopState, k.responses.trans h.responses⟩

/-! DUTY depends on neither the history nor the response port. -/

theorem KeepsDuty.emit (h : KeepsDuty s t) (es : List Event) : KeepsDuty s (t.emit es) :=
  ⟨h.seq, h.loopState, h.responses⟩

theorem KeepsDuty.respond (h : KeepsDuty s t) (v : Word) : KeepsDuty s (t.respond v) :=
  ⟨h.seq, h.loopState, h.responses⟩

/-- Writing a bank whose DUTY response stays the same, whatever else of it changes. -/
theorem KeepsDuty.setBank (hb : s.bank? c = some b) (hr : b'.dutyResponse = b.dutyResponse) :
    KeepsDuty s (s.setBank c b') := by
  refine ⟨rfl, rfl, ?_⟩
  obtain ⟨hlt, rfl⟩ := List.getElem?_eq_some_iff.1 hb
  rw [State.setBank_banks, List.map_set, hr, ← List.map_set, List.set_getElem_self]

theorem KeepsDuty.dutyResponse_eq (h : KeepsDuty s t) (c : Chan) : t.dutyResponse c = s.dutyResponse c := by
  have hb : (t.bank? c).map Bank.dutyResponse = (s.bank? c).map Bank.dutyResponse := by
    simp only [State.bank?, ← List.getElem?_map, h.responses]
  simp only [State.dutyResponse, h.loopState, hb]

/-- A rejected or held command keeps what DUTY depends on, so a command does if its own effect does. -/
theorem exec_keepsDuty (h : exec i s = .next t) (he : Effect i s t → KeepsDuty s t) : KeepsDuty s t := by
  obtain ⟨-, ⟨k, rfl⟩ | ⟨-, -, -, -, rfl⟩ | ⟨-, -, -, heff⟩⟩ := exec_next_cases h
  · exact ⟨rfl, rfl, rfl⟩
  · exact ⟨rfl, rfl, rfl⟩
  · exact he heff

theorem exec_duty_keepsDuty {rdy : Bool} (h : exec (.duty c rdy) s = .next t) : KeepsDuty s t := by
  refine exec_keepsDuty h ?_
  rintro ⟨b, -, rfl⟩
  rcases dutyOp_eq (s := s) (c := c) (b := b) rdy with hop | hop <;> rw [hop]
  · exact .respond (.refl s) _
  · exact .respond (.emit (.refl s) _) _

theorem exec_edge_keepsDuty {now : Word} (h : exec (.edge c now) s = .next t) : KeepsDuty s t := by
  refine exec_keepsDuty h ?_
  rintro ⟨b, hb, rfl⟩
  obtain ⟨m, l, e, hop⟩ := edgeOp_eq now hb
  rw [hop]
  exact .respond (.setBank hb (by rfl)) 0

theorem exec_stall_keepsDuty {now : Word} (h : exec (.stall c now) s = .next t) : KeepsDuty s t := by
  refine exec_keepsDuty h ?_
  rintro ⟨b, hb, rfl⟩
  rcases stallOp_eq (s := s) (c := c) (b := b) now with hop | hop <;> rw [hop]
  · exact .respond (.refl s) 0
  · exact .respond (.emit (.setBank hb (by rfl)) _) 0

end

/-- Settles O37: EDGE, STALL and DUTY itself keep all that DUTY's response depends on. -/
theorem dutyRepeatsItsPulse : Obligations.DutyRepeatsItsPulse := by
  intro s t u v w c d rdy rdy' x i hs hi hst htu huv hvw
  have ktu : KeepsDuty t u := by
    rcases hi with rfl | rfl
    · exact exec_edge_keepsDuty htu
    · exact exec_stall_keepsDuty htu
  have ksu := (exec_duty_keepsDuty hst).trans ktu
  have ksv := ksu.trans (exec_duty_keepsDuty huv)
  rw [exec_duty_resp hs hst, exec_duty_resp (ksu.seq.trans hs) huv, exec_duty_resp (ksv.seq.trans hs) hvw,
    ksu.dutyResponse_eq, ksv.dutyResponse_eq]
  exact ⟨rfl, rfl⟩

end Sys2Proof.Machine

/-! The statements of spec/45_control_loop.md: the commands legal in each loop state (R131 to R134), the hold (R138),
the cycle (R136, R139, R141, R150), TEMP and LOG (R144, R145), and RUNNING as the last state (R147, R148). -/

namespace Sys2Proof.Machine

/-! Which commands the loop state and a running cycle stop (R133, R134, R138). -/

section
variable {s t : State} {i : Instr} {c : Chan}

/-- The commands a running cycle holds are those that only RUNNING accepts. -/
theorem legalIn_of_holdable (h : holdable i = true) (l : LoopState) : legalIn i l = decide (l = .running) := by
  cases i
  case initCh | initDone | edge | rdreg => cases h
  all_goals rfl

/-- A legal command is held, or has its own effect. -/
theorem exec_of_legal (hc : s.configOk = true) (hw : i.wf s.nChannels = true) (hl : legalIn i s.loopState = true) :
    ∃ u, exec i s = .next u ∧ (u = s.hold i ∨ Effect i s u) := by
  by_cases hs : holdable i = false ∨ s.seq = .idle
  · obtain ⟨u, hu⟩ := exists_effect (s := s) hw
    exact ⟨u, exec_of_effect hc hw hl hs hu, .inr hu⟩
  · obtain ⟨hh, hs⟩ := not_or.1 hs
    refine ⟨_, ?_, .inl rfl⟩
    rw [exec_eq_execute, execute_hold hc hw hl (Bool.eq_true_of_not_eq_false hh) hs]

theorem exec_wrongState (hc : s.configOk = true) (hw : i.wf s.nChannels = true)
    (hl : legalIn i s.loopState = false) : exec i s = .next (s.raise .wrongState (encode i)) := by
  rw [exec_eq_execute, execute_wrongState hc hw hl]

/-- Every command but INIT_CH, INIT_DONE and PERIOD keeps what the micro-operations keep. -/
theorem Effect.keeps (hc : s.configOk = true) (he : Effect i s t) (hl : legalIn i .running = true)
    (hp : ∀ now, i ≠ .period now) : Keeps s t := by
  cases i with
  | initCh | initDone => cases hl
  | period now => exact absurd rfl (hp now)
  | edge c now =>
    obtain ⟨b, hb, rfl⟩ := he
    exact (edgeOp_keeps now hb).respond 0
  | stall c now =>
    obtain ⟨b, hb, rfl⟩ := he
    exact (stallOp_keeps now hb).respond 0
  | map c v mv =>
    obtain ⟨b, hb, rfl⟩ := he
    exact (mapOp_keeps v mv hc hb).respond 0
  | duty c rdy =>
    obtain ⟨b, -, rfl⟩ := he
    exact (dutyOp_keeps rdy).respond _
  | temp tv x => exact he ▸ (tempOp_keeps tv x).respond 0
  | log => exact he ▸ logOp_keeps.respond 0
  | rdreg c r =>
    cases r with
    | chan r =>
      obtain ⟨b, -, rfl⟩ := he
      exact (Keeps.refl s).respond _
    | glob r => exact he ▸ (Keeps.refl s).respond _

/-- A command's own effect records no fault. -/
theorem Effect.faultCause (hc : s.configOk = true) (he : Effect i s t) : t.faultCause = s.faultCause := by
  cases i
  case initCh =>
    obtain ⟨b, -, rfl⟩ := he
    rfl
  case initDone | period =>
    obtain rfl := he
    rfl
  all_goals exact (Effect.keeps hc he rfl nofun).faultCause

/-- A legal command records no fault. -/
theorem exec_faultCause_of_legal (hc : s.configOk = true) (hw : i.wf s.nChannels = true)
    (hl : legalIn i s.loopState = true) : ∃ u, exec i s = .next u ∧ u.faultCause = s.faultCause := by
  obtain ⟨u, hu, rfl | he⟩ := exec_of_legal hc hw hl
  · exact ⟨_, hu, rfl⟩
  · exact ⟨u, hu, Effect.faultCause hc he⟩

end

/-- Settles O12: both commands are legal in INIT only. -/
theorem initCommandsLegalInInitOnly : Obligations.InitCommandsLegalInInitOnly := by
  intro s c fl tv hc hlt i hi
  have hcmd : i.wf s.nChannels = true ∧ ∀ l, legalIn i l = decide (l = .init) := by
    simp only [List.mem_cons, List.not_mem_nil, or_false] at hi
    obtain rfl | rfl := hi
    · exact ⟨decide_eq_true hlt, fun _ => rfl⟩
    · exact ⟨rfl, fun _ => rfl⟩
  obtain ⟨hw, hlegal⟩ := hcmd
  exact ⟨fun hl => exec_wrongState hc hw (by simp [hlegal, hl]),
    fun hl => exec_faultCause_of_legal hc hw (by simp [hlegal, hl])⟩

/-- The six periodic commands of a bank the block has are well formed, and a running cycle holds them. -/
theorem wf_and_holdable_of_periodic {n : Nat} {c : Chan} {now mv t : Word} {v rdy tv : Bool} {i : Instr}
    (hlt : c.toNat < n)
    (hi : i ∈ [Instr.period now, .stall c now, .map c v mv, .duty c rdy, .temp tv t, .log]) :
    i.wf n = true ∧ holdable i = true := by
  simp only [List.mem_cons, List.not_mem_nil, or_false] at hi
  obtain rfl | rfl | rfl | rfl | rfl | rfl := hi <;> simp [Instr.wf, holdable, hlt]

/-- EDGE and RDREG, whatever the loop state and the position, change neither the history nor what the micro-operations
keep. -/
theorem exec_edge_or_rdreg_keeps {s : State} {c : Chan} {now : Word} {r : Reg} {i : Instr} (hc : s.configOk = true)
    (hi : i ∈ [Instr.edge c now, .rdreg c r]) (hw : i.wf s.nChannels = true) :
    ∃ u, exec i s = .next u ∧ Keeps s u ∧ u.hist = s.hist := by
  obtain ⟨u, hu⟩ := exists_effect (s := s) hw
  simp only [List.mem_cons, List.not_mem_nil, or_false] at hi
  obtain rfl | rfl := hi
  · refine ⟨u, exec_of_effect hc hw rfl (.inl rfl) hu, Effect.keeps hc hu rfl nofun, ?_⟩
    obtain ⟨b, hb, rfl⟩ := hu
    obtain ⟨m, l, e, hop⟩ := edgeOp_eq now hb
    rw [hop]
    rfl
  · refine ⟨u, exec_of_effect hc hw rfl (.inl rfl) hu, Effect.keeps hc hu rfl nofun, ?_⟩
    cases r with
    | chan r =>
      obtain ⟨b, -, rfl⟩ := hu
      rfl
    | glob r =>
      obtain rfl := hu
      rfl

/-- Settles O13: the six commands a cycle holds are legal in RUNNING only; EDGE and RDREG are accepted everywhere. -/
theorem periodicCommandsLegalInRunningOnly : Obligations.PeriodicCommandsLegalInRunningOnly := by
  intro s c now mv t v rdy tv r hc hlt
  refine ⟨fun i hi => ?_, fun i hi hw => ?_⟩
  · obtain ⟨hw, hh⟩ := wf_and_holdable_of_periodic hlt hi
    have hlegal := legalIn_of_holdable hh
    exact ⟨fun hl => exec_wrongState hc hw (by simp [hlegal, hl]),
      fun hl => exec_faultCause_of_legal hc hw (by simp [hlegal, hl])⟩
  · obtain ⟨u, hu, hk, hh⟩ := exec_edge_or_rdreg_keeps hc hi hw
    exact ⟨u, hu, hh, hk.faultCause⟩

/-- Settles O14: the six commands pass their checks and are held; a rejected EDGE or RDREG holds nothing either. -/
theorem commandsHeldWhileCycleRuns : Obligations.CommandsHeldWhileCycleRuns := by
  intro s c now mv t v rdy tv r hc hlt
  refine ⟨fun hl hs i hi => ?_, fun i hi => ?_⟩
  · obtain ⟨hw, hh⟩ := wf_and_holdable_of_periodic hlt hi
    have hlegal : legalIn i s.loopState = true := by simp [legalIn_of_holdable hh, hl]
    rw [exec_eq_execute]
    exact execute_hold hc hw hlegal hh hs
  · by_cases hw : i.wf s.nChannels = true
    · obtain ⟨u, hu, hk, -⟩ := exec_edge_or_rdreg_keeps hc hi hw
      exact ⟨u, hu, hk.held⟩
    · rw [exec_eq_execute, execute_operandFault hc (operandFault_of_not_wf (Bool.eq_false_iff.2 hw))]
      exact ⟨_, rfl, rfl⟩

/-- Settles O40: the appended events are `logLines`, one per bank and in the banks' order. -/
theorem logReportsEveryChannel : Obligations.LogReportsEveryChannel := by
  intro s hc hl hs
  refine ⟨_, exec_log hc hl hs, rfl, ?_, ?_, fun c b hb => ?_⟩
  · exact List.length_append.trans (congrArg _ (logLines_length _ _ _ _))
  · exact List.take_left
  · show (s.hist ++ logLines s.tempValid s.lastTemp 0 s.banks)[s.hist.length + c]? = _
    rw [List.getElem?_append_right (Nat.le_add_right _ _), Nat.add_sub_cancel_left, logLines_getElem?, hb, Nat.zero_add]
    rfl


/-! A sequencer step runs the operation of the direct command (R141). -/

section
variable {s : State} {c : Chan} {b : Bank}

/-! At a position whose request is answered, the row's operation runs; where no request is made, it does nothing. -/

theorem sequencerStep_map_of_answer {v : Bool} {mv : Word} (hs : s.seq = .map c) (hb : s.bank? c = some b)
    (ha : s.answer = some (.adc v mv)) : sequencerStep s = .next ((mapOp c v mv b s).advance (.duty c)) := by
  cases hok : b.adcOk with
  | true => exact sequencerStep_map_answered hs hb hok ha
  | false => rw [sequencerStep_map_skipped hs hb hok, mapOp_of_not_adcOk v mv hok]

theorem sequencerStep_duty_of_answer {rdy : Bool} (hs : s.seq = .duty c) (hb : s.bank? c = some b)
    (ha : s.answer = some (.pwm rdy)) : sequencerStep s = .next ((dutyOp c rdy b s).advance (s.afterDuty c)) := by
  cases hok : b.pwmOk with
  | true => exact sequencerStep_duty_answered hs hb hok ha
  | false => rw [sequencerStep_duty_skipped hs hb hok, dutyOp_of_not_pwmOk rdy hok]

theorem sequencerStep_temp_of_answer {tv : Bool} {x : Word} (hs : s.seq = .temp) (ha : s.answer = some (.temp tv x)) :
    sequencerStep s = .next ((tempOp tv x s).advance .log) := by
  cases hok : s.tempOk with
  | true => exact sequencerStep_temp_answered hs hok ha
  | false => rw [sequencerStep_temp_skipped hs hok, tempOp_of_not_tempOk tv x hok]

/-- Operation `f` neither reads nor writes the position, the answer and the response port: run by the sequencer it does
what it does at IDLE. -/
def IgnoresPosition (f : State → State) : Prop :=
  ∀ s p v, (f s).advance p =
    { (f { s with seq := .idle }).respond v with seq := p, answer := none, resp := s.resp }

theorem stallOp_ignoresPosition (now : Word) : IgnoresPosition (stallOp c now b) := by
  intro s p v
  unfold stallOp
  dsimp only
  split <;> rfl

theorem mapOp_ignoresPosition (v : Bool) (mv : Word) : IgnoresPosition (mapOp c v mv b) := by
  intro s p w
  unfold mapOp
  split
  · split <;> rfl
  · rfl

theorem dutyOp_ignoresPosition (rdy : Bool) : IgnoresPosition (dutyOp c rdy b) := by
  intro s p v
  unfold dutyOp
  split <;> rfl

theorem tempOp_ignoresPosition (tv : Bool) (x : Word) : IgnoresPosition (tempOp tv x) := by
  intro s p v
  unfold tempOp
  dsimp only
  split
  · split <;> rfl
  · rfl

theorem logOp_ignoresPosition : IgnoresPosition logOp :=
  fun _ _ _ => rfl

/-- A row of the table and a command that both run `f`: the step is the command at IDLE, and the move. -/
theorem IgnoresPosition.direct {f : State → State} {i : Instr} {p : SeqPos} {v : Word} (hf : IgnoresPosition f)
    (hx : exec i { s with seq := .idle } = .next ((f { s with seq := .idle }).respond v))
    (hrow : sequencerStep s = .next ((f s).advance p)) :
    ∃ u, exec i { s with seq := .idle } = .next u ∧
      sequencerStep s = .next { u with seq := p, answer := none, resp := s.resp } :=
  ⟨_, hx, hrow.trans (congrArg _ (hf s p v))⟩

end

/-- Settles O43: each row of R139 runs the operation of its direct command. -/
theorem sequencerStepIsDirectCommand : Obligations.SequencerStepIsDirectCommand := by
  intro s c v tv mv t hc hl hlt direct
  obtain ⟨b, hb⟩ := State.bank?_of_lt hlt
  refine ⟨fun hs => ?_, fun hs ha => ?_, fun hs ha => ?_, fun hs ha => ?_, fun hs => ?_⟩
  · exact (stallOp_ignoresPosition _).direct (exec_stall _ hc hb hl rfl) (sequencerStep_stall hs hb)
  · exact (mapOp_ignoresPosition v mv).direct (exec_map v mv hc hb hl rfl) (sequencerStep_map_of_answer hs hb ha)
  · exact (dutyOp_ignoresPosition v).direct (exec_duty v hc hb hl rfl) (sequencerStep_duty_of_answer hs hb ha)
  · exact (tempOp_ignoresPosition tv t).direct (exec_temp tv t hc hl rfl) (sequencerStep_temp_of_answer hs ha)
  · exact logOp_ignoresPosition.direct (exec_log hc hl rfl) (sequencerStep_log hs)

/-! While a cycle runs, and in RUNNING: what a step can change of the position (R139), the loop state and the ok bits
(R148). -/

section
variable {s t : State} {i : Instr}

/-- A sequencer step does nothing the micro-operations cannot, and then stays or moves to the table's next position. -/
theorem sequencerStep_keeps (hc : s.configOk = true) (h : sequencerStep s = .next t) :
    ∃ u, Keeps s u ∧ (t = u ∨ t = u.advance (SeqPos.next s.nChannels s.seq)) := by
  obtain rfl | ⟨c, b, hs, hb, rfl⟩ | ⟨c, b, hs, hb, hm⟩ | ⟨c, b, hs, hb, hd⟩ | ⟨hs, ht⟩ | ⟨hs, rfl⟩ :=
    sequencerStep_next_cases h
  · exact ⟨t, .refl t, .inl rfl⟩
  all_goals rw [hs]
  · exact ⟨_, stallOp_keeps _ hb, .inr rfl⟩
  · obtain ⟨v, mv, -, -, rfl⟩ | ⟨-, rfl⟩ := hm
    · exact ⟨_, mapOp_keeps v mv hc hb, .inr rfl⟩
    · exact ⟨s, .refl s, .inr rfl⟩
  · obtain ⟨rdy, -, -, rfl⟩ | ⟨-, rfl⟩ := hd
    · exact ⟨_, dutyOp_keeps rdy, .inr rfl⟩
    · exact ⟨s, .refl s, .inr rfl⟩
  · obtain ⟨tv, x, -, -, rfl⟩ | ⟨-, rfl⟩ := ht
    · exact ⟨_, tempOp_keeps tv x, .inr rfl⟩
    · exact ⟨s, .refl s, .inr rfl⟩
  · exact ⟨_, logOp_keeps, .inr rfl⟩

/-- Only PERIOD moves the sequencer, and a running cycle holds it. -/
theorem exec_seq_of_busy (hs : s.seq ≠ .idle) (h : exec i s = .next t) : t.seq = s.seq := by
  obtain ⟨hc, ⟨k, rfl⟩ | ⟨-, -, -, -, rfl⟩ | ⟨-, -, hi, he⟩⟩ := exec_next_cases h
  · rfl
  · rfl
  have hi := hi.resolve_right hs
  cases i
  case initCh =>
    obtain ⟨b, -, rfl⟩ := he
    rfl
  case initDone =>
    obtain rfl := he
    rfl
  case edge | rdreg => exact (Effect.keeps hc he rfl nofun).seq
  all_goals cases hi

@[simp] theorem State.deliver_seq (s : State) (r : Answer) : (s.deliver r).seq = s.seq := by
  obtain ⟨h, -⟩ | h := s.deliver_cases r <;> rw [h]

/-- What RUNNING keeps until a reset (R147, R148): itself, and the ok bits. -/
structure KeepsOks (s t : State) : Prop where
  loopState : t.loopState = s.loopState
  tempOk : t.tempOk = s.tempOk
  oks : t.banks.map Bank.oks = s.banks.map Bank.oks

theorem Keeps.keepsOks (h : Keeps s t) : KeepsOks s t :=
  ⟨h.loopState, h.tempOk, h.oks⟩

theorem State.deliver_keepsOks (s : State) (r : Answer) : KeepsOks s (s.deliver r) := by
  obtain ⟨h, -⟩ | h := s.deliver_cases r <;> rw [h] <;> exact ⟨rfl, rfl, rfl⟩

/-- In RUNNING the commands that write ok bits are rejected (R133). -/
theorem exec_keepsOks (hl : s.loopState = .running) (h : exec i s = .next t) : KeepsOks s t := by
  obtain ⟨hc, ⟨k, rfl⟩ | ⟨-, -, -, -, rfl⟩ | ⟨-, hlegal, -, he⟩⟩ := exec_next_cases h
  · exact ⟨rfl, rfl, rfl⟩
  · exact ⟨rfl, rfl, rfl⟩
  · rw [hl] at hlegal
    by_cases hp : ∃ now, i = .period now
    · obtain ⟨now, rfl⟩ := hp
      obtain rfl := he
      exact ⟨rfl, rfl, rfl⟩
    · exact (Effect.keeps hc he hlegal (not_exists.1 hp)).keepsOks

theorem sequencerStep_keepsOks (hc : s.configOk = true) (h : sequencerStep s = .next t) : KeepsOks s t := by
  obtain ⟨u, hk, rfl | rfl⟩ := sequencerStep_keeps hc h
  · exact hk.keepsOks
  · exact ⟨hk.loopState, hk.tempOk, hk.oks⟩

theorem mainTurn_keepsOks (hc : s.configOk = true) (hl : s.loopState = .running) (h : mainTurn s = .next t) :
    KeepsOks s t := by
  obtain ⟨-, -, rfl⟩ | ⟨i, later, -, -, he⟩ | ⟨-, he⟩ := mainTurn_next_cases h
  · exact ⟨rfl, rfl, rfl⟩
  · obtain ⟨hloop, htemp, hoks⟩ := exec_keepsOks (s := s.keepHeld later) hl he
    exact ⟨hloop, htemp, hoks⟩
  · exact sequencerStep_keepsOks hc he

theorem executeWord_keepsOks {w : CmdWord} (hl : s.loopState = .running) (h : executeWord w s = .next t) :
    KeepsOks s t := by
  obtain ⟨i, -, he⟩ | ⟨k, -, rfl⟩ := executeWord_next_cases h
  · exact exec_keepsOks hl he
  · exact ⟨rfl, rfl, rfl⟩

/-- Taking an input off the script changes nothing that RUNNING keeps. -/
theorem KeepsOks.of_consume {rest : List Input} (h : KeepsOks (s.consume rest) t) : KeepsOks s t :=
  ⟨h.loopState, h.tempOk, h.oks⟩

end

/-- Settles O44: the main agent's turn is a sequencer step; an answer and a presented word leave the position. -/
theorem cycleFollowsTheTable : Obligations.CycleFollowsTheTable := by
  intro s t hs hreset h
  obtain ⟨hc, ⟨rest, -, -, he⟩ | ⟨r, rest, -, rfl⟩ | ⟨rest, hi, -⟩ | ⟨a, w, rest, -, -, he⟩⟩ := step_next_cases h
  · rw [mainTurn_of_cycle (s := s.consume rest) hs] at he
    obtain ⟨u, hk, rfl | rfl⟩ := sequencerStep_keeps (s := s.consume rest) hc he
    · exact .inl hk.seq
    · exact .inr rfl
  · exact .inl ((s.consume rest).deliver_seq r)
  · simp [hi] at hreset
  · obtain ⟨i, -, he⟩ | ⟨k, -, rfl⟩ := executeWord_next_cases he
    · exact .inl (exec_seq_of_busy (s := s.consume rest) hs he)
    · exact .inl rfl

/-- Settles O55: every kind of step but a reset keeps the loop state and the ok bits of RUNNING. -/
theorem runningIsTerminal : Obligations.RunningIsTerminal := by
  intro s t hl hreset h
  have hk : KeepsOks s t := by
    obtain ⟨hc, ⟨rest, -, -, he⟩ | ⟨r, rest, -, rfl⟩ | ⟨rest, hi, -⟩ | ⟨a, w, rest, -, -, he⟩⟩ := step_next_cases h
    · exact (mainTurn_keepsOks (s := s.consume rest) hc hl he).of_consume
    · exact ((s.consume rest).deliver_keepsOks r).of_consume
    · simp [hi] at hreset
    · exact (executeWord_keepsOks (s := s.consume rest) hl he).of_consume
  exact ⟨hk.loopState.trans hl, hk.tempOk, hk.oks⟩

/-! A whole cycle (R150): row by row, with the sequencer at IDLE in no state before the end. -/

/-- `n` steps lead from `s` to `t`, and the sequencer is not at IDLE before the end of them. -/
structure RunsBusy (n : Nat) (s t : State) : Prop where
  run : runSteps n s = .next t
  busy : ∀ k < n, ∃ u, runSteps k s = .next u ∧ u.seq ≠ .idle

section
variable {s t u : State} {m n : Nat}

theorem RunsBusy.refl (s : State) : RunsBusy 0 s s :=
  ⟨rfl, nofun⟩

theorem RunsBusy.trans (h : RunsBusy m s t) (k : RunsBusy n t u) : RunsBusy (m + n) s u := by
  refine ⟨(runSteps_add h.run).trans k.run, fun j hj => ?_⟩
  by_cases hlt : j < m
  · exact h.busy j hlt
  · obtain ⟨i, rfl⟩ := Nat.exists_eq_add_of_le (Nat.not_lt.1 hlt)
    obtain ⟨x, hx, hbusy⟩ := k.busy i (Nat.lt_of_add_lt_add_left hj)
    exact ⟨x, (runSteps_add h.run).trans hx, hbusy⟩

/-- A step does not read the response port (notes/assumptions/6.md). -/
theorem RunsBusy.of_resp_none (hs : s.seq ≠ .idle) (h : RunsBusy (n + 1) { s with resp := none } t) :
    RunsBusy (n + 1) s t := by
  refine ⟨h.run, fun k hk => ?_⟩
  cases k with
  | zero => exact ⟨s, rfl, hs⟩
  | succ k => exact h.busy (k + 1) hk

end

/-- On the configuration of `s`, whatever a cycle has done before it reaches position `q`, the script `ins` leads it to
position `p`, and not to IDLE before its end. -/
def CycleReaches (s : State) (now : Word) (q p : SeqPos) (ins : List Input) : Prop :=
  ∀ t : State, t.config = s.config → ∃ u : State, u.config = s.config ∧
    ∀ rest, RunsBusy ins.length (t.inCycle now q none (ins ++ rest)) (u.inCycle now p none rest)

section
variable {s t : State} {now : Word} {q p r : SeqPos} {ins more rest : List Input} {c : Chan}

theorem CycleReaches.nil : CycleReaches s now q q [] :=
  fun t ht => ⟨t, ht, fun _ => .refl _⟩

theorem CycleReaches.append (h : CycleReaches s now q p ins) (k : CycleReaches s now p r more) :
    CycleReaches s now q r (ins ++ more) := by
  intro t ht
  obtain ⟨u, hu, hrun⟩ := h t ht
  obtain ⟨v, hv, hrun'⟩ := k u hu
  refine ⟨v, hv, fun rest => ?_⟩
  rw [List.append_assoc, List.length_append]
  exact (hrun _).trans (hrun' rest)

/-! A row of the table is one turn, or an answer and a turn; the answer does not move the sequencer. -/

theorem RunsBusy.turn (hs : s.seq ≠ .idle) (h : runSteps 1 s = .next t) : RunsBusy 1 s t := by
  refine ⟨h, fun k hk => ?_⟩
  obtain rfl : k = 0 := Nat.lt_one_iff.1 hk
  exact ⟨s, rfl, hs⟩

theorem RunsBusy.answer_turn {x : Answer} (hc : s.configOk = true) (hs : s.seq ≠ .idle)
    (hi : s.inputs = .answer x :: rest) (h : runSteps 2 s = .next t) : RunsBusy 2 s t := by
  refine ⟨h, fun k hk => ?_⟩
  cases k with
  | zero => exact ⟨s, rfl, hs⟩
  | succ k =>
    obtain rfl : k = 0 := Nat.lt_one_iff.1 (Nat.lt_of_succ_lt_succ hk)
    exact ⟨_, runSteps_succ (step_answer hc hi), by rwa [State.deliver_seq]⟩

theorem cycleReaches_stall (hc : s.configOk = true) (hlt : c.toNat < s.nChannels) :
    CycleReaches s now (.stall c) (.map c) [.turn] := by
  intro t ht
  have hct := (State.configOk_of_config ht).trans hc
  obtain ⟨b, hb⟩ := State.bank?_of_lt ((State.nChannels_of_config ht).symm ▸ hlt)
  exact ⟨_, (stallOp_keeps now hb).config.trans ht, fun _ => .turn nofun (runSteps_inCycle_stall hct hb)⟩

theorem cycleReaches_map (v : Bool) (mv : Word) (hc : s.configOk = true) (hlt : c.toNat < s.nChannels) :
    CycleReaches s now (.map c) (.duty c) [.answer (.adc v mv), .turn] := by
  intro t ht
  have hct := (State.configOk_of_config ht).trans hc
  obtain ⟨b, hb⟩ := State.bank?_of_lt ((State.nChannels_of_config ht).symm ▸ hlt)
  exact ⟨_, (mapOp_keeps v mv hct hb).config.trans ht,
    fun _ => .answer_turn hct nofun rfl (runSteps_inCycle_map v mv hct hb)⟩

theorem State.afterDuty_of_config (h : t.config = s.config) (c : Chan) : t.afterDuty c = s.afterDuty c := by
  simp only [State.afterDuty, State.nChannels_of_config h]

theorem cycleReaches_duty (rdy : Bool) (hc : s.configOk = true) (hlt : c.toNat < s.nChannels) :
    CycleReaches s now (.duty c) (s.afterDuty c) [.answer (.pwm rdy), .turn] := by
  intro t ht
  have hct := (State.configOk_of_config ht).trans hc
  obtain ⟨b, hb⟩ := State.bank?_of_lt ((State.nChannels_of_config ht).symm ▸ hlt)
  rw [← State.afterDuty_of_config ht c]
  exact ⟨_, (dutyOp_keeps rdy).config.trans ht,
    fun _ => .answer_turn hct nofun rfl (runSteps_inCycle_duty rdy hct hb)⟩

theorem cycleReaches_temp (tv : Bool) (x : Word) (hc : s.configOk = true) :
    CycleReaches s now .temp .log [.answer (.temp tv x), .turn] := by
  intro t ht
  have hct := (State.configOk_of_config ht).trans hc
  exact ⟨_, (tempOp_keeps tv x).config.trans ht,
    fun _ => .answer_turn hct nofun rfl (runSteps_inCycle_temp tv x hct)⟩

theorem cycleReaches_log (hc : s.configOk = true) : CycleReaches s now .log .idle [.turn] := by
  intro t ht
  have hct := (State.configOk_of_config ht).trans hc
  exact ⟨_, logOp_keeps.config.trans ht, fun _ => .turn nofun (runSteps_inCycle_log hct)⟩

/-! The channels in order, then the temperature and the log lines. -/

theorem cycleReaches_channels (ds : List Draw) {i : Nat} (hc : s.configOk = true) (hi : i + ds.length = s.nChannels) :
    CycleReaches s now (channelPos s.nChannels i) .temp (channelScript ds) := by
  induction ds generalizing i with
  | nil =>
    have hpos : channelPos s.nChannels i = .temp := if_neg hi.not_lt
    exact hpos ▸ .nil
  | cons d ds ih =>
    rw [List.length_cons] at hi
    have hlt : i < s.nChannels := by omega
    have hc' : (BitVec.ofNat 8 i).toNat < s.nChannels := (State.toNat_ofNat_of_lt hc hlt).symm ▸ hlt
    have hpos : channelPos s.nChannels i = .stall (BitVec.ofNat 8 i) := if_pos hlt
    have hduty := cycleReaches_duty (now := now) d.rdy hc hc'
    rw [State.afterDuty_ofNat hc hlt] at hduty
    rw [hpos]
    exact (cycleReaches_stall hc hc').append <| (cycleReaches_map d.v d.mv hc hc').append <|
      hduty.append (ih (by omega))

theorem cycleReaches_cycle (ds : List Draw) (tv : Bool) (x : Word) (hc : s.configOk = true)
    (hd : ds.length = s.nChannels) : CycleReaches s now (.stall 0) .idle (cycleScript ds tv x) := by
  obtain ⟨-, hpos, -⟩ := s.configOk_iff.1 hc
  have hstart : channelPos s.nChannels 0 = .stall 0 := if_pos hpos
  rw [← hstart]
  exact (cycleReaches_channels ds hc (by omega)).append <| (cycleReaches_temp tv x hc).append (cycleReaches_log hc)

end

theorem count_turn_channelScript (ds : List Draw) : (channelScript ds).count .turn = 3 * ds.length := by
  induction ds with
  | nil => rfl
  | cons d ds ih =>
    simp [channelScript, ih]
    omega

/-- Settles O47: the cycle reaches IDLE at the end of its script and not before, and the script holds three turns per
channel and two more. -/
theorem cycleTakesThreePerChannelPlusTwoSteps : Obligations.CycleTakesThreePerChannelPlusTwoSteps := by
  intro s ds tv t rest hc hs ha hd hi
  have hcount : (cycleScript ds tv t).count .turn = 3 * s.nChannels + 2 := by
    simp [cycleScript, count_turn_channelScript, hd]
  obtain ⟨u, -, hrun⟩ := cycleReaches_cycle (now := s.cycleNow) ds tv t hc hd s rfl
  have hview : s.inCycle s.cycleNow (.stall 0) none (cycleScript ds tv t ++ rest) = { s with resp := none } := by
    rw [State.inCycle, ← hs, ← ha, ← hi]
  have hbusy := hrun rest
  rw [hview, cycleScript_length] at hbusy
  have hbusy := hbusy.of_resp_none (by simp [hs])
  rw [← cycleScript_length] at hbusy
  exact ⟨hcount, ⟨_, hbusy.run, rfl, rfl⟩, hbusy.busy⟩

/-! What the commands of this section do (R131, R132, R136, R144), and the rows that are skipped (R139). -/

/-- R131: nothing failed exactly if all three flags are set. -/
theorem failMask_eq_zero_iff (fl : BitVec 3) : 7 - fl = 0 ↔ fl = 0b111 :=
  sub_eq_zero.trans eq_comm

/-- Settles O17: INIT_CH's operation and response, with the event's condition on the flags themselves. -/
theorem initChRecordsResults : Obligations.InitChRecordsResults := by
  intro s c fl b hc hb hl
  simp only [exec_initCh fl hc hb hl, initChOp, failMask_eq_zero_iff]
  rfl

/-- Settles O18: INIT_DONE's operation and response. -/
theorem initDoneEntersRunning : Obligations.InitDoneEntersRunning :=
  fun _ tv hc hl => exec_initDone tv hc hl

/-- Settles O38: PERIOD's own effect, accepted at IDLE. -/
theorem periodStartsCycle : Obligations.PeriodStartsCycle :=
  fun _ now hc hl hs => exec_period now hc hl hs

/-- Settles O39: TEMP's three cases. -/
theorem tempRecordsSample : Obligations.TempRecordsSample := by
  intro s tv t hc hl hs
  rw [exec_temp tv t hc hl hs]
  split_ifs with hno htv
  · rw [tempOp_of_not_tempOk tv t hno]
    rfl
  · rw [tempOp, if_pos (Bool.eq_true_of_not_eq_false hno), if_pos htv]
    rfl
  · rw [tempOp, if_pos (Bool.eq_true_of_not_eq_false hno), if_neg htv]
    rfl

/-- With no script, the main agent of a running cycle takes the sequencer's step (notes/assumptions/4.md). -/
theorem step_of_noInput {s : State} (hc : s.configOk = true) (hi : s.inputs = []) (hs : s.seq ≠ .idle) :
    step s = sequencerStep { s with resp := none } := by
  have hstep : step s = mainTurn (s.consume []) := by simp [step, nextStep, hc, hi]
  have hview : s.consume [] = { s with resp := none } := by rw [State.consume, ← hi]
  rw [hstep, hview]
  exact mainTurn_of_cycle hs

/-- Settles O45: the skipped rows of the table. -/
theorem skippedSubsystemDrawsNothing : Obligations.SkippedSubsystemDrawsNothing := by
  intro s c b hc hi hb
  have hstep {q : SeqPos} (hs : s.seq = q) (hq : q ≠ .idle) := step_of_noInput hc hi (hs ▸ hq)
  refine ⟨fun hs hok => ?_, fun hs hok => ?_, fun hs hok => ?_⟩
  · exact (hstep hs nofun).trans (sequencerStep_map_skipped hs hb hok)
  · exact (hstep hs nofun).trans (sequencerStep_duty_skipped hs hb hok)
  · exact (hstep hs nofun).trans (sequencerStep_temp_skipped hs hok)

end Sys2Proof.Machine

/-! The statements of spec/60_exceptions.md: EDGEs of different channels in either order (R161), and the bookkeeping of a
decode fault at the machine's step (R152). -/

namespace Sys2Proof.Machine

/-! Two banks (spec/10_state.md R40): writing one leaves the other, and the order of two writes does not matter. -/

section
variable {s : State} {c d : Chan}

theorem State.bank?_setBank_of_ne (b : Bank) (h : c ≠ d) : (s.setBank c b).bank? d = s.bank? d :=
  List.getElem?_set_ne fun he => h (BitVec.eq_of_toNat_eq he)

theorem State.setBank_comm (a b : Bank) (h : c ≠ d) :
    (s.setBank c a).setBank d b = (s.setBank d b).setBank c a := by
  have hset := List.set_comm a b (l := s.banks) fun he => h (BitVec.eq_of_toNat_eq he)
  simp only [State.setBank, hset]

end

/-! R161: an EDGE is one write of its own bank, with a value that only that bank and the parameters decide. -/

/-- Bank `b` after an EDGE at tick `now` (spec/41_tachometer.md R105, R106). -/
def Bank.afterEdge (p : Params) (now : Word) (b : Bank) : Bank :=
  if b.tachoOk then b.recordEdge p now else b

theorem Bank.afterEdge_conf (p : Params) (now : Word) (b : Bank) : (b.afterEdge p now).conf = b.conf := by
  unfold Bank.afterEdge
  split <;> rfl

theorem edgeOp_eq_setBank {s : State} {c : Chan} {b : Bank} (now : Word) (hb : s.bank? c = some b) :
    edgeOp c now b s = s.setBank c (b.afterEdge s.params now) := by
  unfold edgeOp Bank.afterEdge
  split
  · rfl
  · exact (State.setBank_self hb).symm

/-- Two EDGEs of different channels each write their own bank as it was before both. -/
theorem runCommands_edges_of_ne {s : State} {c d : Chan} {b e : Bank} (x y : Word) (hne : c ≠ d)
    (hc : s.configOk = true) (hb : s.bank? c = some b) (he : s.bank? d = some e) :
    runCommands [.edge c x, .edge d y] s =
      .next (((s.setBank c (b.afterEdge s.params x)).setBank d (e.afterEdge s.params y)).respond 0) := by
  set u := s.setBank c (b.afterEdge s.params x)
  have h1 : exec (.edge c x) s = .next (u.respond 0) := by rw [exec_edge x hc hb, edgeOp_eq_setBank x hb]
  have hcfg : (u.respond 0).config = s.config := State.config_setBank hb (Bank.afterEdge_conf _ _ _)
  have he' : (u.respond 0).bank? d = some e := (State.bank?_setBank_of_ne _ hne).trans he
  have h2 := exec_edge y ((State.configOk_of_config hcfg).trans hc) he'
  rw [edgeOp_eq_setBank y he'] at h2
  exact (runCommands_cons h1).trans (runCommands_cons h2)

/-- Settles O26: in either order the two EDGEs are the same two writes of different banks. -/
theorem edgesOfDifferentChannelsCommute : Obligations.EdgesOfDifferentChannelsCommute := by
  intro s c d x y hne hc hcn hdn
  obtain ⟨b, hb⟩ := State.bank?_of_lt hcn
  obtain ⟨e, he⟩ := State.bank?_of_lt hdn
  refine ⟨_, runCommands_edges_of_ne x y hne hc hb he, ?_⟩
  rw [State.setBank_comm _ _ hne]
  exact runCommands_edges_of_ne y x hne.symm hc he hb

/-- Settles O8: the step executes the word on the state with the input consumed, and a word that does not decode raises
its cause there. -/
theorem undecodableWordIsRecorded : Obligations.UndecodableWordIsRecorded := by
  intro s a w rest k hc hi hh hd
  rw [step_command hc hi hh]
  exact executeWord_of_fault hd

end Sys2Proof.Machine

/-! The statements of spec/70_reset_and_hazards.md: the reset action (R179), and an EDGE that comes just before the STALL
of its channel (R188). -/

namespace Sys2Proof.Machine

/-! R188: the edge is at most the timeout old when the STALL reads it. -/

/-- An accepted EDGE with an initialised tachometer leaves the edge recorded in its bank. -/
theorem exec_edge_next_of_tachoOk {s t : State} {c : Chan} {now : Word} {b : Bank} (hb : s.bank? c = some b)
    (ht : b.tachoOk = true) (h : exec (.edge c now) s = .next t) :
    s.configOk = true ∧ t = (s.setBank c (b.recordEdge s.params now)).respond 0 := by
  obtain ⟨hc, -⟩ := exec_next_cases h
  exact ⟨hc, Host.Outcome.next.inj (h.symm.trans (exec_edge_of_tachoOk now hc hb ht))⟩

/-- R113: an edge within the timeout is no stall, whatever it measured. -/
theorem exec_stall_of_recentEdge {s : State} {c : Chan} {b : Bank} (now : Word) (hc : s.configOk = true)
    (hb : s.bank? c = some b) (hl : s.loopState = .running) (hs : s.seq = .idle)
    (hle : tickDiff now b.lastEdgeTime ≤ s.params.stallTimeoutMs.toNat) :
    exec (.stall c now) s = .next (s.respond 0) :=
  (stallDetection s c now b hc hb hl hs).trans (if_neg fun ⟨_, hlt⟩ => hle.not_gt hlt)

/-- Settles O31: the EDGE leaves its tick as the bank's edge time, and STALL compares with that. -/
theorem edgeBeforeStallPreventsIt : Obligations.EdgeBeforeStallPreventsIt := by
  intro s t c x now b hb ht hl hs h hle
  obtain ⟨hc, rfl⟩ := exec_edge_next_of_tachoOk hb ht h
  have hcfg : ((s.setBank c (b.recordEdge s.params x)).respond 0).config = s.config :=
    State.config_setBank (b' := b.recordEdge s.params x) hb rfl
  have hb' := State.bank?_setBank_same (b.recordEdge s.params x) (State.lt_of_bank? hb)
  exact exec_stall_of_recentEdge now ((State.configOk_of_config hcfg).trans hc) hb' hl hs hle

/-! R179: reset is an item of the script. -/

theorem step_reset {s : State} {rest : List Input} (hc : s.configOk = true) (hi : s.inputs = .reset :: rest) :
    step s = .next (s.consume rest).resetBlock := by
  simp [step, nextStep, hc, hi]

/-- Settles O11: the step takes the reset action on the state with the input consumed. -/
theorem resetAction : Obligations.ResetAction :=
  ⟨fun _ => rfl, fun _ _ hc hi => ⟨none, step_reset hc hi⟩⟩

end Sys2Proof.Machine

/-! The other direction of the round trip (spec/30_encoding.md R91, R92, R96), its worked encodings (R97), the reserved
register selects (spec/20_memory.md R61) and the byte form of words (R74, R75). -/

namespace Sys2Proof

/-! R92, R96: the fields of a word that decodes to a command are the command's. -/

/-- A one-bit field is the bit of the flag that is read from it. -/
@[simp] theorem ofBool_decide_eq_one (v : BitVec 1) : BitVec.ofBool (v = 1#1) = v := by
  revert v
  decide

/-- Fields with the opcode's number and only 0 in RSV and the unused fields are those of the command they form. -/
theorem Opcode.fields_of_command {o : Opcode} {f : Fields} {i : Instr} (hop : o.bits = f.op)
    (hr : o.reservedNonzero f = false) (hi : o.command f = some i) : i.fields = f := by
  obtain ⟨op, v, fl, ch, rs, rsv, opnd⟩ := f
  obtain ⟨hrsv, hz⟩ := Opcode.unused_zero hr
  have hv : o.uses .v = false → v = 0 := fun hu => of_decide_eq_true (hz .v hu)
  have hfl : o.uses .fl = false → fl = 0 := fun hu => of_decide_eq_true (hz .fl hu)
  have hch : o.uses .ch = false → ch = 0 := fun hu => of_decide_eq_true (hz .ch hu)
  have hrs : o.uses .rs = false → rs = 0 := fun hu => of_decide_eq_true (hz .rs hu)
  have hopnd : o.uses .opnd = false → opnd = 0 := fun hu => of_decide_eq_true (hz .opnd hu)
  subst hop hrsv
  cases o
  case rdreg =>
    obtain ⟨r, hreg, rfl⟩ := Option.map_eq_some_iff.1 hi
    have hreg : r.rs = rs := Reg.rs_of_ofRs hreg
    simp [Instr.fields, Instr.opcode, Opcode.uses, hreg, hv, hfl, hopnd]
  case log =>
    cases hi
    simp [Instr.fields, Instr.opcode, hv rfl, hfl rfl, hch rfl, hrs rfl, hopnd rfl]
  all_goals
    cases hi
    simp [Instr.fields, Instr.opcode, Opcode.uses, hv, hfl, hch, hrs, hopnd]

/-- Settles O2: the decoder's checks leave no bit of the word that the command's fields do not hold. -/
theorem encodeOfDecode : Obligations.EncodeOfDecode := by
  intro n w i h
  obtain ⟨o, ho, hr, hi, hw⟩ := decode_cmd_cases h
  refine ⟨?_, hw⟩
  rw [encode, Opcode.fields_of_command (Opcode.bits_of_ofBits ho) hr hi, Fields.toWord_ofWord]

/-- Settles O3: each word is the encoding of its command, which is well formed on two channels (O1). -/
theorem workedEncodingsDecode : Obligations.WorkedEncodingsDecode :=
  have hdec := decodeOfEncode 2
  ⟨hdec (.initCh 0 0b111) rfl, hdec (.initCh 1 0b101) rfl, hdec (.initDone true) rfl, hdec (.edge 1 0x10) rfl,
    hdec (.period 2000) rfl, hdec (.stall 0 6001) rfl, hdec (.map 0 true 1500) rfl, hdec (.map 1 false 0) rfl,
    hdec (.duty 0 true) rfl, hdec (.temp true 25) rfl, hdec .log rfl, hdec (.rdreg 0 (.glob .gstatus)) rfl⟩

/-! A reserved register select (spec/20_memory.md R61). -/

/-- A select of R63 or R64 is below 0x08, or from 0x10 to 0x15. -/
theorem Reg.rs_not_reserved (r : Reg) : ¬(0x08 ≤ r.rs.toNat ∧ r.rs.toNat ≤ 0x0F ∨ 0x16 ≤ r.rs.toNat) := by
  rcases r with r | r <;> cases r <;> decide

theorem Reg.ofRs_reserved {rs : BitVec 8} (h : 0x08 ≤ rs.toNat ∧ rs.toNat ≤ 0x0F ∨ 0x16 ≤ rs.toNat) :
    Reg.ofRs rs = none := by
  rw [Option.eq_none_iff_forall_ne_some]
  intro r hr
  exact r.rs_not_reserved (Reg.rs_of_ofRs hr ▸ h)

theorem decode_of_reservedRegister {n : Nat} {w : CmdWord} {o : Opcode}
    (ho : Opcode.ofBits (Fields.ofWord w).op = some o) (hr : o.reservedNonzero (Fields.ofWord w) = false)
    (hi : o.command (Fields.ofWord w) = none) : decode n w = .fault .badRegister := by
  simp [decode, ho, hr, hi]

/-- The fields of RDREG at their places in the word (R81). -/
theorem rdregWord_eq_ofNat (c rs : BitVec 8) :
    Machine.rdregWord c rs = BitVec.ofNat 64 (rs.toNat * 2 ^ 16 + c.toNat * 2 ^ 8 + 0xA) := by
  apply BitVec.eq_of_toNat_eq
  simp only [Machine.rdregWord, Fields.toWord, Machine.toNat_append_eq_add, Opcode.bits, BitVec.ofNat_eq_ofNat,
    BitVec.toNat_ofNat]
  omega

/-- Settles O6: the word passes the field check, and its select names no register. -/
theorem reservedRegisterIsBadRegister : Obligations.ReservedRegisterIsBadRegister := by
  intro n c rs hrs
  rw [← rdregWord_eq_ofNat]
  apply decode_of_reservedRegister (o := .rdreg)
  · rw [Machine.rdregWord, Fields.ofWord_toWord, Opcode.ofBits_bits]
  · simp [Machine.rdregWord, Opcode.reservedNonzero, Opcode.uses, Fields.isZero]
  · simp [Machine.rdregWord, Opcode.command, Reg.ofRs_reserved hrs]

/-! Words as bytes (spec/20_memory.md R74, R75). -/

@[simp] theorem leBytes_length (k v : Nat) : (leBytes k v).length = k := by
  induction k generalizing v with
  | zero => rfl
  | succ k ih => simp [leBytes, ih]

/-- `k` bytes hold a number modulo `256 ^ k`. -/
theorem ofLeBytes_leBytes (k v : Nat) : ofLeBytes (leBytes k v) = v % 256 ^ k := by
  induction k generalizing v with
  | zero => simp [leBytes, ofLeBytes, Nat.mod_one]
  | succ k ih =>
    have hbyte : (BitVec.ofNat 8 (v % 256)).toNat = v % 256 := by simp
    rw [leBytes, ofLeBytes, hbyte, ih, Nat.pow_succ', Nat.mod_mul]

theorem ofLeBytes_wordBytes (w : CmdWord) : ofLeBytes (wordBytes w) = w.toNat := by
  rw [wordBytes, ofLeBytes_leBytes]
  exact Nat.mod_eq_of_lt w.isLt

/-- Settles O59: the eight bytes of a word hold its number. -/
theorem bytesDecodeAsTheirWord : Obligations.BytesDecodeAsTheirWord := by
  refine fun n => ⟨fun w => ?_, fun bs hlen => if_neg hlen⟩
  have hlen : (wordBytes w).length = 8 := leBytes_length 8 w.toNat
  rw [decodeBytes, if_pos hlen, ofLeBytes_wordBytes, BitVec.ofNat_toNat, BitVec.setWidth_eq]

end Sys2Proof

/-! The rest of the statements of spec/10_state.md: the invariant at power-on, the frame of EDGE (R52), the banks a
command leaves (R40), and what every step but a reset keeps: the configuration, the history, the first fault cause and the edge
bits (R35, R39, R46, R49). -/

namespace Sys2Proof.Machine

/-! The invariant at power-on, and the EDGE frame. -/

theorem State.config_powerOn (cfg : Config) : (State.powerOn cfg).config = cfg := by
  simp [State.config, State.powerOn, Bank.atReset, Function.comp_def]

theorem State.configOk_powerOn {cfg : Config} (h : cfg.wf = true) : (State.powerOn cfg).configOk = true := by
  rw [State.configOk, State.config_powerOn, h]

/-- Settles O50: at power-on every bank is at its reset values, which R38 allows, and nothing runs, is held or
answered. -/
theorem powerOnMeetsInvariant : Obligations.PowerOnMeetsInvariant := by
  intro cfg h
  have hc := State.configOk_powerOn h
  obtain ⟨-, -, -, hconf⟩ := (State.powerOn cfg).configOk_iff.1 hc
  refine ⟨hc, fun b hb => ?_, rfl, fun hs => absurd rfl hs, Nat.zero_le _, nofun, fun hs => absurd rfl hs, rfl⟩
  have hw := hconf b hb
  obtain ⟨k, -, rfl⟩ := List.mem_map.1 hb
  exact Bank.atReset_ok _ hw

/-- Settles O25: a bank that is there is named by a well-formed EDGE, which is always accepted. -/
theorem edgeFrame : Obligations.EdgeFrame := by
  intro s t c now b hb h
  obtain ⟨hc, -⟩ := exec_next_cases h
  obtain ⟨m, l, e, hop⟩ := edgeOp_eq now hb
  rw [exec_edge now hc hb, hop] at h
  exact ⟨m, l, e, (Host.Outcome.next.inj h).symm⟩

/-! The banks: a command writes the bank it names, if it names one; LOG clears every stall bit. -/

/-- The bank a command names; a global register is in none (spec/20_memory.md R64). -/
def namedBank : Instr → Option Chan
  | .initCh c _ => some c
  | .initDone _ => none
  | .edge c _ => some c
  | .period _ => none
  | .stall c _ => some c
  | .map c _ _ => some c
  | .duty c _ => some c
  | .temp _ _ => none
  | .log => none
  | .rdreg c (.chan _) => some c
  | .rdreg _ (.glob _) => none

/-- From `s` to `t`, of the banks only `c` is written, and its edge bit is not cleared. -/
def WritesBank (c : Chan) (s t : State) : Prop :=
  ∃ b b', s.bank? c = some b ∧ t.banks = s.banks.set c.toNat b' ∧ (b.edgeSeen = true → b'.edgeSeen = true)

theorem Bank.afterEdge_edgeSeen {p : Params} {now : Word} {b : Bank} (h : b.edgeSeen = true) :
    (b.afterEdge p now).edgeSeen = true := by
  unfold Bank.afterEdge
  split
  · rfl
  · exact h

section
variable {s t u : State} {i : Instr}

/-- Everything a command's own effect can do to the banks: nothing, a write of the bank it names, or LOG's clearing of
the stall bits. -/
theorem Effect.banks_cases (he : Effect i s t) :
    t.banks = s.banks ∨ (∃ c, namedBank i = some c ∧ WritesBank c s t) ∨
    (i = .log ∧ t.banks = s.banks.map fun b => { b with stallEvt := false }) := by
  cases i with
  | initCh c fl =>
    obtain ⟨b, hb, rfl⟩ := he
    exact .inr (.inl ⟨c, rfl, b, _, hb, rfl, id⟩)
  | initDone tv => exact .inl (he ▸ rfl)
  | period now => exact .inl (he ▸ rfl)
  | edge c now =>
    obtain ⟨b, hb, rfl⟩ := he
    rw [edgeOp_eq_setBank now hb]
    exact .inr (.inl ⟨c, rfl, b, _, hb, rfl, Bank.afterEdge_edgeSeen⟩)
  | stall c now =>
    obtain ⟨b, hb, rfl⟩ := he
    rcases stallOp_eq (s := s) (c := c) (b := b) now with hop | hop <;> rw [hop]
    · exact .inl rfl
    · exact .inr (.inl ⟨c, rfl, b, _, hb, rfl, id⟩)
  | map c v mv =>
    obtain ⟨b, hb, rfl⟩ := he
    rcases mapOp_eq (s := s) (c := c) (b := b) v mv with hop | hop | hop <;> rw [hop]
    · exact .inl rfl
    · exact .inl rfl
    · exact .inr (.inl ⟨c, rfl, b, _, hb, rfl, id⟩)
  | duty c rdy =>
    obtain ⟨b, -, rfl⟩ := he
    rcases dutyOp_eq (s := s) (c := c) (b := b) rdy with hop | hop <;> rw [hop] <;> exact .inl rfl
  | temp tv x =>
    obtain rfl := he
    rcases tempOp_eq (s := s) tv x with hop | hop | hop <;> rw [hop] <;> exact .inl rfl
  | log => exact .inr (.inr ⟨rfl, he ▸ rfl⟩)
  | rdreg c r =>
    cases r with
    | chan r =>
      obtain ⟨b, -, rfl⟩ := he
      exact .inl rfl
    | glob r => exact .inl (he ▸ rfl)

/-- A command that answers a next state leaves the banks, or has its own effect. -/
theorem exec_banks_cases (h : exec i s = .next t) : t.banks = s.banks ∨ Effect i s t := by
  obtain ⟨-, ⟨k, rfl⟩ | ⟨-, -, -, -, rfl⟩ | ⟨-, -, -, he⟩⟩ := exec_next_cases h
  · exact .inl rfl
  · exact .inl rfl
  · exact .inr he

/-- A command that is not LOG leaves every bank it does not name. -/
theorem exec_bank?_of_not_named {k : Chan} (hlog : i ≠ .log) (hk : namedBank i ≠ some k) (h : exec i s = .next t) :
    t.bank? k = s.bank? k := by
  rcases exec_banks_cases h with hb | he
  · rw [State.bank?, hb, State.bank?]
  rcases Effect.banks_cases he with hb | ⟨c, hc, -, b', -, hb, -⟩ | ⟨rfl, -⟩
  · rw [State.bank?, hb, State.bank?]
  · have hne : c ≠ k := fun hck => hk (hck ▸ hc)
    rw [State.bank?, hb]
    exact State.bank?_setBank_of_ne b' hne
  · exact absurd rfl hlog

/-- A command that names no bank and is not LOG leaves all of them. -/
theorem exec_banks_of_not_named (hlog : i ≠ .log) (hk : namedBank i = none) (h : exec i s = .next t) :
    t.banks = s.banks := by
  rcases exec_banks_cases h with hb | he
  · exact hb
  rcases Effect.banks_cases he with hb | ⟨c, hc, -⟩ | ⟨rfl, -⟩
  · exact hb
  · simp [hk] at hc
  · exact absurd rfl hlog

end

/-- Settles O57: each command of the first list names channel `c` or, if it reads a global register, none; each of the
second names none. -/
theorem commandChangesNoOtherBank : Obligations.CommandChangesNoOtherBank := by
  intro s t c k fl now mv v rdy tv r
  refine ⟨fun i hi h hne => ?_, fun i hi h => ?_⟩
  · have hnamed : i ≠ .log ∧ ∀ d, namedBank i = some d → c = d := by
      simp only [List.mem_cons, List.not_mem_nil, or_false] at hi
      obtain rfl | rfl | rfl | rfl | rfl | rfl := hi
      iterate 5 exact ⟨nofun, fun _ => Option.some.inj⟩
      cases r <;> simp [namedBank]
    obtain ⟨hlog, hc⟩ := hnamed
    exact exec_bank?_of_not_named hlog (fun hk => hne (hc k hk).symm) h
  · have hnamed : i ≠ .log ∧ namedBank i = none := by
      simp only [List.mem_cons, List.not_mem_nil, or_false] at hi
      obtain rfl | rfl | rfl := hi <;> exact ⟨nofun, rfl⟩
    obtain ⟨hlog, hnone⟩ := hnamed
    exact exec_banks_of_not_named hlog hnone h

/-! What every step but a reset keeps. -/

/-- The edge bits that are set stay set. -/
def KeepsEdgeBits (s t : State) : Prop :=
  ∀ (c : Nat) (b : Bank), s.banks[c]? = some b → b.edgeSeen = true →
    ∃ b', t.banks[c]? = some b' ∧ b'.edgeSeen = true

/-- What every step but a reset keeps: the configuration, the events, a recorded fault cause and the edge bits
(spec/10_state.md R35, R39, R46, R49). -/
structure KeepsRecord (s t : State) : Prop where
  config : t.config = s.config
  hist : s.hist <+: t.hist
  faultCause : s.faultCause ≠ 0 → t.faultCause = s.faultCause
  edgeBits : KeepsEdgeBits s t

section
variable {s t u : State} {i : Instr} {c : Chan}

theorem KeepsEdgeBits.of_banks (h : t.banks = s.banks) : KeepsEdgeBits s t :=
  fun _ b hb he => ⟨b, h ▸ hb, he⟩

theorem WritesBank.keepsEdgeBits (h : WritesBank c s t) : KeepsEdgeBits s t := by
  obtain ⟨b, b', hb, hbanks, hedge⟩ := h
  intro k a ha he
  rw [hbanks]
  by_cases hk : c.toNat = k
  · subst hk
    obtain rfl : a = b := Option.some.inj (ha.symm.trans hb)
    exact ⟨b', List.getElem?_set_self (State.lt_of_bank? hb), hedge he⟩
  · exact ⟨a, (List.getElem?_set_ne hk).trans ha, he⟩

theorem Effect.keepsEdgeBits (he : Effect i s t) : KeepsEdgeBits s t := by
  rcases Effect.banks_cases he with hb | ⟨c, -, hw⟩ | ⟨-, hb⟩
  · exact .of_banks hb
  · exact hw.keepsEdgeBits
  · intro k a ha hedge
    rw [hb, List.getElem?_map, ha]
    exact ⟨_, rfl, hedge⟩

theorem KeepsRecord.refl (s : State) : KeepsRecord s s :=
  ⟨rfl, List.prefix_refl _, fun _ => rfl, .of_banks rfl⟩

/-- The record does not hold the position, the answer or the response port. -/
theorem KeepsRecord.advance_of_respond {v : Word} (h : KeepsRecord s (u.respond v)) (p : SeqPos) :
    KeepsRecord s (u.advance p) :=
  ⟨h.config, h.hist, h.faultCause, h.edgeBits⟩

/-- Nor does it hold the script. -/
theorem KeepsRecord.of_consume {rest : List Input} (h : KeepsRecord (s.consume rest) t) : KeepsRecord s t :=
  ⟨h.config, h.hist, h.faultCause, h.edgeBits⟩

theorem State.raise_keepsRecord (s : State) (k : Cause) (w : CmdWord) : KeepsRecord s (s.raise k w) :=
  ⟨rfl, List.prefix_append _ _, fun hf => if_neg hf, .of_banks rfl⟩

theorem State.deliver_keepsRecord (s : State) (r : Answer) : KeepsRecord s (s.deliver r) := by
  obtain ⟨h, -⟩ | h := s.deliver_cases r <;> rw [h]
  · exact ⟨rfl, List.prefix_refl _, fun _ => rfl, .of_banks rfl⟩
  · exact .refl s

theorem Effect.keepsRecord (hc : s.configOk = true) (he : Effect i s t) : KeepsRecord s t := by
  have hedge := Effect.keepsEdgeBits he
  have hfault := Effect.faultCause hc he
  cases i
  case initCh c fl =>
    obtain ⟨b, hb, rfl⟩ := he
    have hcfg : (initChOp c fl b s).config = s.config := State.config_setBank hb rfl
    exact ⟨hcfg, List.prefix_append _ _, fun _ => hfault, hedge⟩
  case initDone =>
    obtain rfl := he
    exact ⟨rfl, List.prefix_append _ _, fun _ => hfault, hedge⟩
  case period =>
    obtain rfl := he
    exact ⟨rfl, List.prefix_refl _, fun _ => hfault, hedge⟩
  all_goals
    have hk := Effect.keeps hc he rfl nofun
    exact ⟨hk.config, hk.hist, fun _ => hfault, hedge⟩

theorem exec_keepsRecord (h : exec i s = .next t) : KeepsRecord s t := by
  obtain ⟨hc, ⟨k, rfl⟩ | ⟨-, -, -, -, rfl⟩ | ⟨-, -, -, he⟩⟩ := exec_next_cases h
  · exact s.raise_keepsRecord k _
  · exact ⟨rfl, List.prefix_refl _, fun _ => rfl, .of_banks rfl⟩
  · exact Effect.keepsRecord hc he

theorem executeWord_keepsRecord {w : CmdWord} (h : executeWord w s = .next t) : KeepsRecord s t := by
  obtain ⟨i, -, he⟩ | ⟨k, -, rfl⟩ := executeWord_next_cases h
  · exact exec_keepsRecord he
  · exact s.raise_keepsRecord k w

/-- Each row of R139 does to the record what its direct command does, or nothing. -/
theorem sequencerStep_keepsRecord (hc : s.configOk = true) (h : sequencerStep s = .next t) : KeepsRecord s t := by
  have hskip (p : SeqPos) : KeepsRecord s (s.advance p) := ⟨rfl, List.prefix_refl _, fun _ => rfl, .of_banks rfl⟩
  obtain rfl | ⟨c, b, -, hb, rfl⟩ | ⟨c, b, -, hb, hm⟩ | ⟨c, b, -, hb, hd⟩ | ⟨-, ht⟩ | ⟨-, rfl⟩ :=
    sequencerStep_next_cases h
  · exact .refl t
  · exact (Effect.keepsRecord (i := .stall c s.cycleNow) hc ⟨b, hb, rfl⟩).advance_of_respond _
  · obtain ⟨v, mv, -, -, rfl⟩ | ⟨-, rfl⟩ := hm
    · exact (Effect.keepsRecord (i := .map c v mv) hc ⟨b, hb, rfl⟩).advance_of_respond _
    · exact hskip _
  · obtain ⟨rdy, -, -, rfl⟩ | ⟨-, rfl⟩ := hd
    · exact (Effect.keepsRecord (i := .duty c rdy) hc ⟨b, hb, rfl⟩).advance_of_respond _
    · exact hskip _
  · obtain ⟨tv, x, -, -, rfl⟩ | ⟨-, rfl⟩ := ht
    · exact (Effect.keepsRecord (i := .temp tv x) hc rfl).advance_of_respond _
    · exact hskip _
  · exact (Effect.keepsRecord (i := .log) hc rfl).advance_of_respond _

theorem mainTurn_keepsRecord (hc : s.configOk = true) (h : mainTurn s = .next t) : KeepsRecord s t := by
  obtain ⟨-, -, rfl⟩ | ⟨i, later, -, -, he⟩ | ⟨-, he⟩ := mainTurn_next_cases h
  · exact .refl t
  · obtain ⟨hcfg, hhist, hfault, hedge⟩ := exec_keepsRecord he
    exact ⟨hcfg, hhist, hfault, hedge⟩
  · exact sequencerStep_keepsRecord hc he

/-- A step is the reset action, or keeps the record. -/
theorem step_reset_or_keepsRecord (h : step s = .next t) :
    (∃ rest, s.inputs = .reset :: rest ∧ t = (s.consume rest).resetBlock) ∨ KeepsRecord s t := by
  obtain ⟨hc, ⟨rest, -, -, he⟩ | ⟨r, rest, -, rfl⟩ | hreset | ⟨a, w, rest, -, -, he⟩⟩ := step_next_cases h
  · exact .inr (mainTurn_keepsRecord (s := s.consume rest) hc he).of_consume
  · exact .inr ((s.consume rest).deliver_keepsRecord r).of_consume
  · exact .inl hreset
  · exact .inr (executeWord_keepsRecord he).of_consume

theorem step_keepsRecord (hreset : s.inputs.head? ≠ some .reset) (h : step s = .next t) : KeepsRecord s t := by
  refine (step_reset_or_keepsRecord h).resolve_left ?_
  rintro ⟨rest, hi, -⟩
  simp [hi] at hreset

end

/-- Settles O52: a reset leaves the history, every other step keeps the record. -/
theorem historyOnlyGrows : Obligations.HistoryOnlyGrows := by
  intro s t h
  obtain ⟨rest, -, rfl⟩ | hk := step_reset_or_keepsRecord h
  · exact List.prefix_refl _
  · exact hk.hist

/-- Settles O53: a reset leaves the configuration, every other step keeps the record. -/
theorem configurationNeverChanges : Obligations.ConfigurationNeverChanges := by
  intro s t h
  obtain ⟨rest, -, rfl⟩ | hk := step_reset_or_keepsRecord h
  · exact (s.consume rest).config_resetBlock
  · exact hk.config

/-- Settles O54: the first cause is part of the record. -/
theorem firstFaultCauseIsSticky : Obligations.FirstFaultCauseIsSticky :=
  fun _ _ hf hreset h => (step_keepsRecord hreset h).faultCause hf

/-- Settles O56: the edge bits are part of the record. -/
theorem edgeSeenClearedByResetOnly : Obligations.EdgeSeenClearedByResetOnly :=
  fun _ _ c b hb he hreset h => (step_keepsRecord hreset h).edgeBits c b hb he

end Sys2Proof.Machine

/-! The rest of the statements on responses, holds and waiting: every command responds or is held (spec/30_encoding.md
R95), the oldest held command is accepted at IDLE (spec/45_control_loop.md R137), an unanswered request keeps the
sequencer where it is (R142), and every step answers a next state (spec/60_exceptions.md R156, R157). -/

namespace Sys2Proof.Machine

/-! Held commands and responses. -/

section
variable {s t : State} {i : Instr}

/-- A command's own effect touches neither the commands on hold nor the answer the sequencer waits for. -/
theorem Effect.held_and_answer (hc : s.configOk = true) (he : Effect i s t) :
    t.held = s.held ∧ t.answer = s.answer := by
  cases i
  case initCh =>
    obtain ⟨b, -, rfl⟩ := he
    exact ⟨rfl, rfl⟩
  case initDone | period =>
    obtain rfl := he
    exact ⟨rfl, rfl⟩
  all_goals
    have hk := Effect.keeps hc he rfl nofun
    exact ⟨hk.held, hk.answer⟩

/-- A command's own effect responds, and with 0 unless it is RDREG or DUTY. -/
theorem Effect.resp (he : Effect i s t) :
    ∃ v, t.resp = some v ∧ ((∀ c r, i ≠ .rdreg c r) → (∀ c rdy, i ≠ .duty c rdy) → v = 0) := by
  cases i with
  | initCh | edge | stall | map =>
    obtain ⟨b, -, rfl⟩ := he
    exact ⟨0, rfl, fun _ _ => rfl⟩
  | initDone | period | temp | log =>
    obtain rfl := he
    exact ⟨0, rfl, fun _ _ => rfl⟩
  | duty c rdy =>
    obtain ⟨b, -, rfl⟩ := he
    exact ⟨_, rfl, fun _ hd => absurd rfl (hd c rdy)⟩
  | rdreg c r =>
    cases r with
    | chan r =>
      obtain ⟨b, -, rfl⟩ := he
      exact ⟨_, rfl, fun hr _ => absurd rfl (hr c _)⟩
    | glob r =>
      obtain rfl := he
      exact ⟨_, rfl, fun hr _ => absurd rfl (hr c _)⟩

end

/-- Settles O16: a rejected command responds 0, a held one not at all, and an accepted one as its effect does. -/
theorem everyCommandRespondsOrIsHeld : Obligations.EveryCommandRespondsOrIsHeld := by
  intro s t i h
  obtain ⟨hc, ⟨k, rfl⟩ | ⟨-, -, -, hs, rfl⟩ | ⟨-, -, -, he⟩⟩ := exec_next_cases h
  · exact .inr ⟨rfl, 0, rfl, fun _ _ => rfl⟩
  · exact .inl ⟨rfl, hs⟩
  · obtain ⟨hheld, -⟩ := Effect.held_and_answer hc he
    exact .inr ⟨hheld, Effect.resp he⟩

section
variable {s : State} {i : Instr} {later : List Instr}

theorem mainTurn_of_held (hs : s.seq = .idle) (hh : s.held = i :: later) :
    mainTurn s = exec i (s.keepHeld later) := by
  simp [mainTurn, hs, hh]

theorem step_noInput (hc : s.configOk = true) (hi : s.inputs = []) : step s = mainTurn (s.consume s.inputs) := by
  simp [step, nextStep, hc, hi]

/-- A word of the main agent waits while a command on hold goes first (notes/assumptions/5.md). -/
theorem step_command_of_heldFirst {a : Agent} {w : CmdWord} {rest : List Input} (hc : s.configOk = true)
    (hi : s.inputs = .command a w :: rest) (hh : s.heldFirst a = true) : step s = mainTurn (s.consume s.inputs) := by
  simp [step, nextStep, hc, hi, hh]

end

/-- Settles O15: in each case the step is the main agent's turn, which at IDLE takes the oldest command on hold. -/
theorem oldestHeldCommandAcceptedAtIdle : Obligations.OldestHeldCommandAcceptedAtIdle := by
  intro s i later hc hs hh
  have hturn (rest : List Input) : mainTurn (s.consume rest) = exec i ((s.consume rest).keepHeld later) :=
    mainTurn_of_held hs hh
  have hfirst : s.heldFirst .main = true := by simp [State.heldFirst, hs, hh]
  refine ⟨fun hi => ?_, fun rest hi => ?_, fun w rest hi => ?_⟩
  · exact (step_noInput hc hi).trans (hturn _)
  · exact (step_turn hc hi).trans (hturn _)
  · exact (step_command_of_heldFirst hc hi hfirst).trans (hturn _)

/-! An unanswered request. -/

section
variable {s t : State} {i : Instr}

/-- The sequencer has no step of its own while it waits. -/
theorem sequencerStep_of_waiting (h : s.waiting = true) : sequencerStep s = .next s := by
  cases hs : s.seq with
  | idle | stall | log => simp [State.waiting, hs] at h
  | map c =>
    obtain ⟨ha, b, hb, hok⟩ : s.answer = none ∧ ∃ b, s.bank? c = some b ∧ b.adcOk = true := by
      simpa [State.waiting, hs, Option.any_eq_true] using h
    simp [sequencerStep, hs, withBank_some hb, hok, ha]
  | duty c =>
    obtain ⟨ha, b, hb, hok⟩ : s.answer = none ∧ ∃ b, s.bank? c = some b ∧ b.pwmOk = true := by
      simpa [State.waiting, hs, Option.any_eq_true] using h
    simp [sequencerStep, hs, withBank_some hb, hok, ha]
  | temp =>
    obtain ⟨ha, hok⟩ : s.answer = none ∧ s.tempOk = true := by simpa [State.waiting, hs] using h
    simp [sequencerStep, hs, hok, ha]

theorem State.ne_idle_of_waiting (h : s.waiting = true) : s.seq ≠ .idle := by
  intro hs
  simp [State.waiting, hs] at h

theorem KeepsOks.any_bank? (k : KeepsOks s t) (c : Chan) (f : Bool × Bool × Bool → Bool) :
    (t.bank? c).any (fun b => f b.oks) = (s.bank? c).any (fun b => f b.oks) := by
  have hoks : (t.bank? c).map Bank.oks = (s.bank? c).map Bank.oks := by
    simpa [State.bank?] using congrArg (·[c.toNat]?) k.oks
  simpa [Option.any_map, Function.comp_def] using congrArg (·.any f) hoks

/-- Whether the sequencer waits rests on the position, the answer and the ok bits (R139, R140). -/
theorem KeepsOks.waiting (k : KeepsOks s t) (hs : t.seq = s.seq) (ha : t.answer = s.answer) :
    t.waiting = s.waiting := by
  have hadc (c : Chan) : (t.bank? c).any (·.adcOk) = (s.bank? c).any (·.adcOk) := k.any_bank? c (·.2.1)
  have hpwm (c : Chan) : (t.bank? c).any (·.pwmOk) = (s.bank? c).any (·.pwmOk) := k.any_bank? c (·.2.2)
  simp only [State.waiting, hs, ha, k.tempOk, hadc, hpwm]

/-- A command at most joins the commands on hold, and leaves the answer. -/
theorem exec_held_and_answer (h : exec i s = .next t) : s.held <+: t.held ∧ t.answer = s.answer := by
  obtain ⟨hc, ⟨k, rfl⟩ | ⟨-, -, -, -, rfl⟩ | ⟨-, -, -, he⟩⟩ := exec_next_cases h
  · exact ⟨List.prefix_refl _, rfl⟩
  · exact ⟨List.prefix_append _ _, rfl⟩
  · obtain ⟨hheld, hans⟩ := Effect.held_and_answer hc he
    exact ⟨hheld ▸ List.prefix_refl _, hans⟩

/-- A command presented in a running cycle leaves the sequencer waiting where it is. -/
theorem exec_of_waiting (hl : s.loopState = .running) (hw : s.waiting = true) (h : exec i s = .next t) :
    t.seq = s.seq ∧ t.waiting = true ∧ s.held <+: t.held := by
  have hseq := exec_seq_of_busy (State.ne_idle_of_waiting hw) h
  obtain ⟨hheld, hans⟩ := exec_held_and_answer h
  exact ⟨hseq, ((exec_keepsOks hl h).waiting hseq hans).trans hw, hheld⟩

end

/-- Settles O46: the main agent's turn is a sequencer step, of which there is none, and a presented word is rejected,
held, or has an effect that moves nothing. -/
theorem unansweredRequestIsStuck : Obligations.UnansweredRequestIsStuck := by
  intro s t hinv hw hanswer hreset h
  have hs := State.ne_idle_of_waiting hw
  obtain ⟨-, -, -, hrun, -⟩ := hinv
  obtain ⟨-, ⟨rest, -, -, he⟩ | ⟨r, rest, hi, -⟩ | ⟨rest, hi, -⟩ | ⟨a, w, rest, -, -, he⟩⟩ := step_next_cases h
  · rw [mainTurn_of_cycle (s := s.consume rest) hs, sequencerStep_of_waiting (s := s.consume rest) hw] at he
    cases he
    exact ⟨rfl, hw, List.prefix_refl _⟩
  · simp [hi] at hanswer
  · simp [hi] at hreset
  · obtain ⟨i, -, he⟩ | ⟨k, -, rfl⟩ := executeWord_next_cases he
    · exact exec_of_waiting (s := s.consume rest) (hrun hs) hw he
    · exact ⟨rfl, hw, List.prefix_refl _⟩

/-! Every step answers a next state. -/

section
variable {s : State}

/-- At a position in range the bank is there, and every row answers. -/
theorem sequencerStep_next_of_seqInRange (h : s.seqInRange = true) : ∃ t, sequencerStep s = .next t := by
  have hbank {c : Chan} (hlt : c.toNat < s.nChannels) {f : Bank → Result} (hf : ∀ b, ∃ t, f b = .next t) :
      ∃ t, withBank c s f = .next t := by
    obtain ⟨b, hb⟩ := State.bank?_of_lt hlt
    rw [withBank_some hb]
    exact hf b
  unfold State.seqInRange at h
  unfold sequencerStep
  cases hs : s.seq with
  | idle | log => exact ⟨_, rfl⟩
  | stall c =>
    rw [hs] at h
    exact hbank (of_decide_eq_true h) fun b => ⟨_, rfl⟩
  | map c | duty c =>
    rw [hs] at h
    refine hbank (of_decide_eq_true h) fun b => ?_
    split
    · split <;> exact ⟨_, rfl⟩
    · exact ⟨_, rfl⟩
  | temp =>
    dsimp only
    split
    · split <;> exact ⟨_, rfl⟩
    · exact ⟨_, rfl⟩

theorem mainTurn_next_of_seqInRange (hc : s.configOk = true) (hr : s.seqInRange = true) :
    ∃ t, mainTurn s = .next t := by
  by_cases hs : s.seq = .idle
  · cases hh : s.held with
    | nil => exact ⟨s, by simp [mainTurn, hs, hh]⟩
    | cons i later =>
      rw [mainTurn_of_held hs hh]
      exact exec_next_of_configOk i hc
  · rw [mainTurn_of_cycle hs]
    exact sequencerStep_next_of_seqInRange hr

theorem executeWord_next_of_configOk (w : CmdWord) (hc : s.configOk = true) : ∃ t, executeWord w s = .next t := by
  cases hd : decode s.nChannels w with
  | cmd i =>
    rw [executeWord_of_cmd hd]
    exact exec_next_of_configOk i hc
  | fault k => exact ⟨_, executeWord_of_fault hd⟩

end

/-- Settles O51: each kind of input has a next state. -/
theorem nothingIsFatal : Obligations.NothingIsFatal := by
  rintro s ⟨hc, -, hr, -⟩
  have hturn (rest : List Input) : ∃ t, mainTurn (s.consume rest) = .next t := mainTurn_next_of_seqInRange hc hr
  cases hi : s.inputs with
  | nil => exact step_noInput hc hi ▸ hturn _
  | cons x rest =>
    cases x with
    | turn => exact step_turn hc hi ▸ hturn rest
    | answer r => exact ⟨_, step_answer hc hi⟩
    | reset => exact ⟨_, step_reset hc hi⟩
    | command a w =>
      cases hh : s.heldFirst a with
      | true => exact step_command_of_heldFirst hc hi hh ▸ hturn _
      | false => exact step_command hc hi hh ▸ executeWord_next_of_configOk w hc

end Sys2Proof.Machine
